-- ==== Sys2Proof/Word.lean ====
section
/-! DEFINITION. The word and byte types of the engine (00_scope.md R9, R11): every number is unsigned. -/

namespace Sys2Proof

/-- `u32`, the word of the datapath (00_scope.md R9, R11). -/
abbrev Word := BitVec 32

/-- `u8`, a byte of a Message, a Block or a Digest (00_scope.md R9, R11). -/
abbrev Byte := BitVec 8

end Sys2Proof
end

