-- ==== Sys2Proof/Syntax.lean ====
section
/-! DEFINITION. The operations of the engine, one constructor per row of spec/opcode_table.json. -/

namespace Sys2Proof

/-- The rows of spec/opcode_table.json: the host command (format C), the micro-operations and the phases
without an operation (format U), and the macro-operations (format M), 30_encoding.md R97, R98, R101, R105.
The only operand of any row is the index `t` of WLOAD, WEXP and ROUND (R100). -/
inductive Instr where
  | start
  | lenchk
  | padlen
  | parsechk
  | hinit
  | bload
  | wload (t : BitVec 4)
  | wexp (t : BitVec 6)
  | vinit
  | round (t : BitVec 6)
  | hmix
  | dout
  | idle
  | done
  | error
  | reservedE
  | reservedF
  | pad
  | parse
  | compress
  | sha256
  deriving DecidableEq, Repr

end Sys2Proof
end

