-- ==== Sys2Proof/WellFormed.lean ====
section
/-! DEFINITION. Which terms of Instr stand for an operation of the engine: the one constraint the opcode
table puts on an operand, WEXP's `t >= 16` (30_encoding.md R100, R101). WLOAD's four bits hold 0 to 15 and
ROUND's six bits hold 0 to 63, all of which R100 allows. -/

namespace Sys2Proof

/-- The check of 30_encoding.md R101: WEXP is `0111tttttt` "with `t >= 16`". -/
def Instr.wellFormed : Instr → Bool
  | .wexp t => decide (16 ≤ t.toNat)
  | .start | .lenchk | .padlen | .parsechk | .hinit | .bload | .wload _ | .vinit | .round _ | .hmix
  | .dout | .idle | .done | .error | .reservedE | .reservedF | .pad | .parse | .compress | .sha256 => true

abbrev Instr.WellFormed (i : Instr) : Prop := i.wellFormed = true

end Sys2Proof
end

