-- ==== Sys2Proof/Decode.lean ====
section
/-! DEFINITION. Control formats C and U (30_encoding.md R97 to R102): the decoder, total and rejecting by
name, and the encoder written from the same patterns of R101. -/

namespace Sys2Proof

/-- The two control formats of 30_encoding.md R97. -/
inductive ControlWord where
  /-- Format C, the value written to CTRL (R98). -/
  | command (v : BitVec 8)
  /-- Format U, `UOP = {PHASE[3:0], T[5:0]}` (R100). -/
  | uop (w : BitVec 10)
  deriving DecidableEq, Repr

/-- Why a control word selects no row of the opcode table. -/
inductive DecodeError where
  /-- A CTRL value other than 0x01 (30_encoding.md R102). -/
  | reservedCommand
  /-- `PHASE = WLOAD` with `T >= 16` (30_encoding.md R102). -/
  | unreachableWload
  deriving DecidableEq, Repr

/-- What a control word decodes to: a row of the opcode table, or none, and why. -/
inductive Decoded where
  | row (i : Instr)
  | noRow (e : DecodeError)
  deriving DecidableEq, Repr

/-- `UOP[9:6]` (30_encoding.md R100). -/
def uopPhase (w : BitVec 10) : BitVec 4 := w.extractLsb' 6 4

/-- `UOP[5:0]` (30_encoding.md R100). -/
def uopT (w : BitVec 10) : BitVec 6 := w.extractLsb' 0 6

/-- Format C: 0x01 is START, every other value is reserved (30_encoding.md R98, R102). -/
def decodeCommand (v : BitVec 8) : Decoded :=
  if v = 0x01#8 then .row .start else .noRow .reservedCommand

/-- `011000tttt` is WLOAD; the words of phase 6 with `T >= 16` select no row (30_encoding.md R101, R102). -/
def decodeWload (t : BitVec 6) : Decoded :=
  if t.extractLsb' 4 2 = 0#2 then .row (.wload (t.extractLsb' 0 4)) else .noRow .unreachableWload

/-- Format U by the patterns of 30_encoding.md R101: "a word `u` selects the row when `u & mask = match`".
WEXP's row matches every `t`; its constraint `t >= 16` is `Instr.wellFormed`'s (log 10). -/
def decodeUop (w : BitVec 10) : Decoded :=
  match (uopPhase w).toNat with
  | 0 => .row .idle
  | 1 => .row .lenchk
  | 2 => .row .padlen
  | 3 => .row .parsechk
  | 4 => .row .hinit
  | 5 => .row .bload
  | 6 => decodeWload (uopT w)
  | 7 => .row (.wexp (uopT w))
  | 8 => .row .vinit
  | 9 => .row (.round (uopT w))
  | 10 => .row .hmix
  | 11 => .row .dout
  | 12 => .row .done
  | 13 => .row .error
  | 14 => .row .reservedE
  | _ => .row .reservedF

def decode : ControlWord → Decoded
  | .command v => decodeCommand v
  | .uop w => decodeUop w

/-- `{phase, t}` (30_encoding.md R100). -/
def packUop (phase : BitVec 4) (t : BitVec 6) : BitVec 10 := phase ++ t

/-- The word of each row, from the patterns of 30_encoding.md R98 and R101, an ignored bit written as 0
(log 22); `none` for the macro-operations, which "have no encoding" (R97). -/
def encode : Instr → Option ControlWord
  | .start => some (.command 0x01#8)
  | .idle => some (.uop (packUop 0 0))
  | .lenchk => some (.uop (packUop 1 0))
  | .padlen => some (.uop (packUop 2 0))
  | .parsechk => some (.uop (packUop 3 0))
  | .hinit => some (.uop (packUop 4 0))
  | .bload => some (.uop (packUop 5 0))
  | .wload t => some (.uop (packUop 6 (0#2 ++ t)))
  | .wexp t => some (.uop (packUop 7 t))
  | .vinit => some (.uop (packUop 8 0))
  | .round t => some (.uop (packUop 9 t))
  | .hmix => some (.uop (packUop 10 0))
  | .dout => some (.uop (packUop 11 0))
  | .done => some (.uop (packUop 12 0))
  | .error => some (.uop (packUop 13 0))
  | .reservedE => some (.uop (packUop 14 0))
  | .reservedF => some (.uop (packUop 15 0))
  | .pad | .parse | .compress | .sha256 => none

/-- Which format a row of `nbits` bits has: format C is 8 bits and format U is 10 (30_encoding.md R97, R103),
so a row of one byte is a command and a longer one a controller word (log 18). -/
def tableControlWord (nbits w : Nat) : Option ControlWord :=
  if nbits ≤ 8 then
    if w < 2 ^ 8 then some (.command (BitVec.ofNat 8 w)) else none
  else
    if w < 2 ^ 10 then some (.uop (BitVec.ofNat 10 w)) else none

/-- The instruction the decoder reads from a row's bits, numbered as spec/opcode_table.json numbers them. -/
def decodeTableWord (nbits w : Nat) : Option Instr :=
  match tableControlWord nbits w with
  | none => none
  | some c =>
    match decode c with
    | .row i => some i
    | .noRow _ => none

end Sys2Proof
end

