-- ==== Sys2Proof/Config.lean ====
section
/-! DEFINITION. The values the spec leaves unspecified, as uninterpreted constants: nothing can be proved
about what they are (93_implementation_defined.md U1, U3: "the value is drawn by the environment"). The
first argument of each `unspec…` is the number of the draw, which `State.draws` counts. -/

namespace Sys2Proof

/-- `H[0..7]` after a reset (10_state.md R40, U1). -/
opaque Config.unspecH : Nat → Vector Word 8
/-- `v[0..7]` (`a` to `h`) after a reset (10_state.md R40, U1). -/
opaque Config.unspecV : Nat → Vector Word 8
/-- `W[0..63]` after a reset (10_state.md R40, U1). -/
opaque Config.unspecW : Nat → Vector Word 64
/-- `BLK[0..63]` after a reset (10_state.md R40, U1). -/
opaque Config.unspecBlk : Nat → Vector Byte 64
/-- `DIGEST[0..31]` after a reset (R40, U1) and after an accepted START (46_top_level.md R201). -/
opaque Config.unspecDigest : Nat → Vector Byte 32
/-- `MSG_LEN` after a reset (10_state.md R28, R40, U1). -/
opaque Config.unspecMsgLen : Nat → BitVec 64
/-- `LBITS` after a reset (10_state.md R29, R40, U1). -/
opaque Config.unspecLbits : Nat → BitVec 64
/-- `KPAD` after a reset (10_state.md R30, R40, U1). -/
opaque Config.unspecKpad : Nat → BitVec 6
/-- `PLEN` after a reset (10_state.md R31, R40, U1). -/
opaque Config.unspecPlen : Nat → BitVec 62
/-- `NB` after a reset (10_state.md R32, R40, U1). -/
opaque Config.unspecNb : Nat → BitVec 56
/-- `BI` after a reset (10_state.md R33, R40, U1). -/
opaque Config.unspecBi : Nat → BitVec 56

/-- What a host read of `DIGEST:i` returns while `PHASE` is not `DONE` (10_state.md R27, U3). Arguments: the
number of draws so far, `BI`, the controller word and `i`, so that the value may differ after every START
and every engine step, and two reads with neither between them agree (20_memory.md R70). -/
opaque Config.digestNotDone : Nat → BitVec 56 → BitVec 10 → Nat → Byte

/-- What `MSG:i` holds before the host has written it: the platform's memory, of which the spec says nothing
but that it is the host's (20_memory.md R61). DESIGN CHOICE, log 6. -/
opaque Config.msgInitial : Nat → Byte

end Sys2Proof
end

