-- ==== Sys2Proof/Machine/State.lean ====
section
/-! DEFINITION. The state of the machine as plain data: every register of 10_state.md R21 under the spec's own
name, the host's memory MSG, and the inputs the host has pending; the reasons a step can stop; the state
after reset (10_state.md R40). -/

namespace Sys2Proof.Machine

/-- `PHASE`, a 4-bit register: its fourteen named codes and the two reserved ones (10_state.md R35). -/
inductive Phase where
  | idle
  | lenchk
  | padlen
  | parsechk
  | hinit
  | bload
  | wload
  | wexp
  | vinit
  | round
  | hmix
  | dout
  | done
  | error
  | reservedE
  | reservedF
  deriving DecidableEq, Repr

/-- `ERRCODE`, a 2-bit register: all four values have a name (10_state.md R38). -/
inductive ErrorCode where
  | none
  | overflow
  | padding
  | invalidBlockLength
  deriving DecidableEq, Repr

/-- The working variables `a` to `h` (10_state.md R23). -/
structure Vars where
  a : Word
  b : Word
  c : Word
  d : Word
  e : Word
  f : Word
  g : Word
  h : Word
  deriving DecidableEq, Repr

/-- Every move of the host (46_top_level.md R212). -/
inductive HostMove where
  | writeMsg (i : Nat) (v : Byte)
  | writeMsgLen (v : BitVec 64)
  | readMsgLen
  | writeCtrl (v : BitVec 8)
  | readCtrl
  | readStatus
  | writeStatus (v : BitVec 8)
  | readDigest (i : Fin 32)
  | writeDigest (i : Fin 32) (v : Byte)
  | reset
  deriving DecidableEq, Repr

/-- What happens next: a move of the host, or one step of the engine (10_state.md R20: two agents). -/
inductive Input where
  | host (m : HostMove)
  | engine
  deriving DecidableEq, Repr

/-- A value handed to the host by one of its reads (46_top_level.md R212, "Value returned"). -/
inductive ReadValue where
  | msgLen (v : BitVec 64)
  | ctrl (v : BitVec 8)
  | status (v : BitVec 8)
  | digest (i : Fin 32) (v : Byte)
  deriving DecidableEq, Repr

/-- The bytes of MSG the host has written: addresses strictly rising (`Memory.wf` in Ops). An index that is
not listed has never been written. -/
abbrev Memory := List Host.Cell

structure State where
  /-- Hash state (10_state.md R22). -/
  H : Vector Word 8
  /-- Working variables (10_state.md R23). -/
  v : Vars
  /-- Message schedule (10_state.md R24). -/
  W : Vector Word 64
  /-- Block buffer (10_state.md R26). -/
  BLK : Vector Byte 64
  /-- Digest output (10_state.md R27). -/
  DIGEST : Vector Byte 32
  /-- Message length in bytes, `L` (10_state.md R28). -/
  MSG_LEN : BitVec 64
  /-- Message length in bits, `l` (10_state.md R29). -/
  LBITS : BitVec 64
  /-- Number of zero bytes of padding, `k` (10_state.md R30). -/
  KPAD : BitVec 6
  /-- Length of the Padded Message in bytes (10_state.md R31). -/
  PLEN : BitVec 62
  /-- Number of blocks (10_state.md R32). -/
  NB : BitVec 56
  /-- Index of the block (10_state.md R33). -/
  BI : BitVec 56
  /-- Index `t` (10_state.md R34). -/
  T : BitVec 6
  /-- The micro-operation executed next (10_state.md R35). -/
  PHASE : Phase
  /-- Error code (10_state.md R38). -/
  ERRCODE : ErrorCode
  /-- The host's memory, the Message in its first `L` bytes (20_memory.md R61). -/
  MSG : Memory
  /-- Bytes of MSG the platform provides, `0 <= MSG_CAP <= 2^61 - 1`; no step changes it (00_scope.md R10, log 5). -/
  MSG_CAP : Fin (2 ^ 61)
  /-- What happens next, first in the list first; when empty, the engine steps (log 7). -/
  inputs : List Input
  /-- Values returned to the host, newest first (log 8). -/
  reads : List ReadValue
  /-- Number of draws of free values so far (log 4). -/
  draws : Nat
  deriving DecidableEq, Repr

/-- Why the machine stops. The engine's three errors are no stops: they are next states (60_exceptions.md R237). -/
inductive Fault where
  /-- RESERVED_E and RESERVED_F: "no step enabled (stuck)" (30_encoding.md R102). Safe. -/
  | stuckReservedPhase
  /-- `PHASE = WEXP` with `T < 16`, raised by WEXP; `PHASE = WLOAD` with `T >= 16`, raised by the engine's step:
  "treat as stuck" (30_encoding.md R102). Safe. -/
  | stuckUnreachableWord
  /-- BLOAD of a byte PM does not have: PM is defined "only for `0 <= i < PLEN`" (20_memory.md R62). Safe. -/
  | paddedIndexOutOfRange
  /-- BLOAD of a Message byte, or a host write of one, at an index `>= MSG_CAP` (93_implementation_defined.md U5,
  46_top_level.md R212). Safe. -/
  | msgBeyondCap
  deriving DecidableEq, Repr

/-- Why a step has no meaning. -/
inductive Refusal where
  /-- An instruction exec gives no meaning to. Safe. -/
  | notModelled (mnemonic : String)
  /-- The host move "forbidden and has no meaning here": a write to `MSG:i`, `i < L`, while BUSY
  (46_top_level.md R212, 93_implementation_defined.md U4). Unsafe where a host breaks its duty (log 14). -/
  | messageWriteWhileBusy
  deriving DecidableEq, Repr

/-- The machine after reset: `PHASE = IDLE`, `ERRCODE = 0`, `T = 0` and every other register unspecified
(10_state.md R40), that is free values of draw 0 (log 1); the host has written nothing and nothing is pending. -/
def State.reset : State where
  H := Config.unspecH 0
  v := ⟨(Config.unspecV 0)[0], (Config.unspecV 0)[1], (Config.unspecV 0)[2], (Config.unspecV 0)[3],
        (Config.unspecV 0)[4], (Config.unspecV 0)[5], (Config.unspecV 0)[6], (Config.unspecV 0)[7]⟩
  W := Config.unspecW 0
  BLK := Config.unspecBlk 0
  DIGEST := Config.unspecDigest 0
  MSG_LEN := Config.unspecMsgLen 0
  LBITS := Config.unspecLbits 0
  KPAD := Config.unspecKpad 0
  PLEN := Config.unspecPlen 0
  NB := Config.unspecNb 0
  BI := Config.unspecBi 0
  T := 0
  PHASE := .idle
  ERRCODE := .none
  MSG := []
  MSG_CAP := ⟨2 ^ 61 - 1, by decide⟩
  inputs := []
  reads := []
  draws := 1

end Sys2Proof.Machine
end

