-- ==== Sys2Proof/Machine/Ops.lean ====
section
/-! DEFINITION. The shared operations: the memory MSG, the controller word, raising an error (the engine's
one exception entry), free values, and running one operation after another. -/

namespace Sys2Proof.Machine

abbrev Result := Host.Outcome State Fault Refusal

/-! ### The memory MSG -/

/-- The byte the host has written at `a`, `none` where it has written nothing. -/
def Memory.read? : Memory → Nat → Option Byte
  | [], _ => none
  | (a', b) :: rest, a => if a = a' then some b else Memory.read? rest a

/-- Writes `b` at `a`, keeping the addresses strictly rising. -/
def Memory.write : Memory → Nat → Byte → Memory
  | [], a, b => [(a, b)]
  | (a', b') :: rest, a, b =>
    if a < a' then (a, b) :: (a', b') :: rest
    else if a = a' then (a, b) :: rest
    else (a', b') :: Memory.write rest a b

/-- The canonical form: addresses strictly rising. An unlisted address reads as no value (`Memory.read?`), and
every entry holds one, so no entry equals what an unlisted address reads as. -/
abbrev Memory.wf (m : Memory) : Prop := (m.map Prod.fst).Pairwise (· < ·)

/-- `MemRead(MSG:i, 1)`: the byte the host wrote, or what the platform's memory held before (20_memory.md R61,
log 6). -/
def msgByte (s : State) (i : Nat) : Byte := (Memory.read? s.MSG i).getD (Config.msgInitial i)

/-- `MSG[i] <- v` (46_top_level.md R207). -/
def writeMsg (s : State) (i : Nat) (v : Byte) : State := { s with MSG := Memory.write s.MSG i v }

/-! ### The controller word -/

/-- The codes of `PHASE` (10_state.md R35). -/
def Phase.code : Phase → BitVec 4
  | .idle => 0
  | .lenchk => 1
  | .padlen => 2
  | .parsechk => 3
  | .hinit => 4
  | .bload => 5
  | .wload => 6
  | .wexp => 7
  | .vinit => 8
  | .round => 9
  | .hmix => 10
  | .dout => 11
  | .done => 12
  | .error => 13
  | .reservedE => 14
  | .reservedF => 15

/-- The phase a code names (10_state.md R35). -/
def Phase.ofCode (c : BitVec 4) : Phase :=
  match c.toNat with
  | 0 => .idle
  | 1 => .lenchk
  | 2 => .padlen
  | 3 => .parsechk
  | 4 => .hinit
  | 5 => .bload
  | 6 => .wload
  | 7 => .wexp
  | 8 => .vinit
  | 9 => .round
  | 10 => .hmix
  | 11 => .dout
  | 12 => .done
  | 13 => .error
  | 14 => .reservedE
  | _ => .reservedF

/-- `UOP = {PHASE, T}`, the two registers read together (30_encoding.md R100). -/
def controllerWord (s : State) : BitVec 10 := packUop s.PHASE.code s.T

/-! ### Indices -/

/-- `4t + j`, an index of BLK (20_memory.md R67). -/
def blkIndex (t : BitVec 4) (j : Fin 4) : Fin 64 := ⟨4 * t.toNat + j.val, by have := t.isLt; omega⟩

/-- The index `t` of a schedule word or a round constant. -/
def wordIndex (t : BitVec 6) : Fin 64 := ⟨t.toNat, t.isLt⟩

/-- `t - n`, the taps of WEXP (30_encoding.md R96); WEXP reads it for `n <= t` only. -/
def tapIndex (t : BitVec 6) (n : Nat) : Fin 64 := ⟨t.toNat - n, by have := t.isLt; omega⟩

/-- `W[t] <- x`. -/
def setW (s : State) (t : Fin 64) (x : Word) : State := { s with W := s.W.set t x }

/-! ### Errors and free values -/

/-- `raise E`: "writes `ERRCODE <- code(E)` and `PHASE <- ERROR` and nothing else" (60_exceptions.md R237). There
is no return from an error; only START and reset leave `ERROR` (R238). -/
def raise (e : ErrorCode) (s : State) : State := { s with ERRCODE := e, PHASE := .error }

/-- `DIGEST <- unspecified` (46_top_level.md R201): free values of the next draw (log 2). -/
def invalidateDigest (s : State) : State :=
  { s with DIGEST := Config.unspecDigest s.draws, draws := s.draws + 1 }

/-- The reset event: every register to its value of 10_state.md R40, the unspecified ones to free values of the
next draw; MSG is untouched (70_reset_and_hazards.md R260, log 1, log 20). -/
def resetEngine (s : State) : State :=
  { s with
    H := Config.unspecH s.draws
    v := ⟨(Config.unspecV s.draws)[0], (Config.unspecV s.draws)[1], (Config.unspecV s.draws)[2], (Config.unspecV s.draws)[3],
          (Config.unspecV s.draws)[4], (Config.unspecV s.draws)[5], (Config.unspecV s.draws)[6], (Config.unspecV s.draws)[7]⟩
    W := Config.unspecW s.draws
    BLK := Config.unspecBlk s.draws
    DIGEST := Config.unspecDigest s.draws
    MSG_LEN := Config.unspecMsgLen s.draws
    LBITS := Config.unspecLbits s.draws
    KPAD := Config.unspecKpad s.draws
    PLEN := Config.unspecPlen s.draws
    NB := Config.unspecNb s.draws
    BI := Config.unspecBi s.draws
    T := 0
    PHASE := .idle
    ERRCODE := .none
    draws := s.draws + 1 }

/-! ### One operation after another -/

/-- `o ; f` of 30_encoding.md R105: `f` runs on the state `o` leaves; a stop of `o` stops both. -/
def chain (o : Result) (f : State → Result) : Result :=
  match o with
  | .next s => f s
  | .fault r => .fault r
  | .refused r => .refused r

/-- As `chain`, but an error `o` raised ends the sequence: "no later one starts" (60_exceptions.md R237). -/
def chainUnlessError (o : Result) (f : State → Result) : Result :=
  chain o fun s => if s.PHASE = .error then .next s else f s

end Sys2Proof.Machine
end

