-- ==== Sys2Proof/Machine/Flags.lean ====
section
/-! DEFINITION. The engine's only flags, the fields of STATUS, computed from PHASE and ERRCODE (10_state.md R36,
R38): no micro-operation of the datapath sets a carry, zero, sign or overflow flag. -/

namespace Sys2Proof.Machine

/-- `STATUS.BUSY`: PHASE is one of the codes 1 to 11 (10_state.md R36). -/
def busy (s : State) : Bool := decide (1 ≤ s.PHASE.code.toNat) && decide (s.PHASE.code.toNat ≤ 11)

/-- `STATUS.DONE` (10_state.md R36). -/
def doneFlag (s : State) : Bool := decide (s.PHASE = .done)

/-- `STATUS.ERR` (10_state.md R36). -/
def errFlag (s : State) : Bool := decide (s.PHASE = .error)

/-- The codes of ERRCODE (10_state.md R38). -/
def ErrorCode.code : ErrorCode → BitVec 2
  | .none => 0
  | .overflow => 1
  | .padding => 2
  | .invalidBlockLength => 3

/-- `STATUS`: bits 7:6 and 3 are 0, ERRCODE in 5:4, ERR, DONE, BUSY in 2, 1, 0 (10_state.md R36). -/
def status (s : State) : BitVec 8 :=
  0#2 ++ s.ERRCODE.code ++ 0#1 ++ BitVec.ofBool (errFlag s) ++ BitVec.ofBool (doneFlag s) ++ BitVec.ofBool (busy s)

/-- The phases in which START is accepted: `IDLE`, `DONE`, `ERROR` (46_top_level.md R201). -/
def acceptsStart (s : State) : Bool :=
  decide (s.PHASE = .idle) || decide (s.PHASE = .done) || decide (s.PHASE = .error)

end Sys2Proof.Machine
end

