-- ==== Sys2Proof/Machine/WordFunctions.lean ====
section
/-! DEFINITION. The word functions of the datapath and the conversions between bytes and words
(40_word_functions.md). None writes a flag and none raises an error. -/

namespace Sys2Proof.Machine

/-- `add32(x1, ..., xn)`: the sum modulo 2^32 (40_word_functions.md R120). -/
def add32 : List Word → Word
  | [] => 0#32
  | x :: xs => x + add32 xs

/-- `rotr(x, n)`, `1 <= n <= 31` (40_word_functions.md R121). -/
def rotr (x : Word) (n : Nat) : Word := (x >>> n) ||| (x <<< (32 - n))

/-- `x >> n`, the logical right shift (40_word_functions.md R122). -/
def shr (x : Word) (n : Nat) : Word := x >>> n

/-- `Ch(x, y, z)` (40_word_functions.md R124). -/
def ch (x y z : Word) : Word := (x &&& y) ^^^ (~~~x &&& z)

/-- `Maj(x, y, z)` (40_word_functions.md R125). -/
def maj (x y z : Word) : Word := (x &&& y) ^^^ (x &&& z) ^^^ (y &&& z)

/-- `BSIG0(x)` (40_word_functions.md R126). -/
def bsig0 (x : Word) : Word := rotr x 2 ^^^ rotr x 13 ^^^ rotr x 22

/-- `BSIG1(x)` (40_word_functions.md R127). -/
def bsig1 (x : Word) : Word := rotr x 6 ^^^ rotr x 11 ^^^ rotr x 25

/-- `SSIG0(x)`: two rotations and a shift (40_word_functions.md R128). -/
def ssig0 (x : Word) : Word := rotr x 7 ^^^ rotr x 18 ^^^ shr x 3

/-- `SSIG1(x)`: two rotations and a shift (40_word_functions.md R129). -/
def ssig1 (x : Word) : Word := rotr x 17 ^^^ rotr x 19 ^^^ shr x 10

/-- `be32(b)`: the byte with the lowest index is the most significant (40_word_functions.md R130). -/
def be32 (b0 b1 b2 b3 : Byte) : Word := b0 ++ b1 ++ b2 ++ b3

/-- Byte `j` of `bytes_be32(x)`, bits `31 - 8j` down to `24 - 8j` (40_word_functions.md R131). -/
def byteBe32 (x : Word) (j : Nat) : Byte := x.extractLsb' (24 - 8 * j) 8

/-- `bytes_be32(x)` (40_word_functions.md R131). -/
def bytesBe32 (x : Word) : List Byte := [byteBe32 x 0, byteBe32 x 1, byteBe32 x 2, byteBe32 x 3]

/-- Byte `j` of `bytes_be64(x)`, bits `63 - 8j` down to `56 - 8j` (40_word_functions.md R132). -/
def byteBe64 (x : BitVec 64) (j : Nat) : Byte := x.extractLsb' (56 - 8 * j) 8

/-- `bytes_be64(x)` (40_word_functions.md R132). -/
def bytesBe64 (x : BitVec 64) : List Byte :=
  [byteBe64 x 0, byteBe64 x 1, byteBe64 x 2, byteBe64 x 3, byteBe64 x 4, byteBe64 x 5, byteBe64 x 6, byteBe64 x 7]

/-- `be64(b)` (40_word_functions.md R130). -/
def be64 (b0 b1 b2 b3 b4 b5 b6 b7 : Byte) : BitVec 64 := b0 ++ b1 ++ b2 ++ b3 ++ b4 ++ b5 ++ b6 ++ b7

/-- `k = ((448 - l - 8) mod 512) div 8` with the true modulo of R133 (41_padder.md R143). -/
def padCount (l : Nat) : Nat := (((448 - (l : Int) - 8) % 512) / 8).toNat

end Sys2Proof.Machine
end

