-- ==== Sys2Proof/Machine/Operands.lean ====
section
/-! DEFINITION. The operands of the micro-operations: the virtual Padded Message PM, the words of a Block, the
working variables by index and the bytes of the Digest. -/

namespace Sys2Proof.Machine

/-- `L`, the Message length in bytes (10_state.md R28). -/
abbrev msgLength (s : State) : Nat := s.MSG_LEN.toNat

/-- Byte `i` of a Padded Message of `L` Message bytes, `k` zero bytes and bit length `l` (41_padder.md R145). -/
def paddedByte (L k : Nat) (l : BitVec 64) (msg : Nat → Byte) (i : Nat) : Byte :=
  if i < L then msg i
  else if i = L then 0x80#8
  else if i ≤ L + k then 0x00#8
  else byteBe64 l (i - (L + 1 + k))

/-- `PM(i)` (41_padder.md R145, 20_memory.md R62). -/
def PM (s : State) (i : Nat) : Byte := paddedByte (msgLength s) s.KPAD.toNat s.LBITS (msgByte s) i

/-- The PM index of the first byte of block `BI` (20_memory.md R67). -/
abbrev blockBase (s : State) : Nat := 64 * s.BI.toNat

/-- Every index of block `BI` is one PM is defined at, `i < L + 1 + k + 8` (20_memory.md R62, 41_padder.md R145). -/
def blockInPadded (s : State) : Bool := decide (blockBase s + 64 ≤ msgLength s + 1 + s.KPAD.toNat + 8)

/-- Some index of block `BI` is a Message index the platform does not have: below `L` and at least MSG_CAP
(93_implementation_defined.md U5). -/
def blockReadsBeyondCap (s : State) : Bool :=
  decide (max (blockBase s) s.MSG_CAP.val < min (msgLength s) (blockBase s + 64))

/-- `PM:64*BI` to `PM:64*BI + 63` (42_block_parser.md R164). -/
@[irreducible] def paddedBlock (s : State) : Vector Byte 64 := Vector.ofFn fun j => PM s (blockBase s + j.val)

/-- `be32(MemRead(BLK:4*t, 4))` (43_compressor_schedule.md R171). -/
def blockWord (s : State) (t : BitVec 4) : Word :=
  be32 (s.BLK.get (blkIndex t 0)) (s.BLK.get (blkIndex t 1)) (s.BLK.get (blkIndex t 2)) (s.BLK.get (blkIndex t 3))

/-- `add32(SSIG0(W[t-15]), SSIG1(W[t-2]), W[t-7], W[t-16])` (43_compressor_schedule.md R172). -/
def expandedWord (s : State) (t : BitVec 6) : Word :=
  add32 [ssig0 (s.W.get (tapIndex t 15)), ssig1 (s.W.get (tapIndex t 2)), s.W.get (tapIndex t 7), s.W.get (tapIndex t 16)]

/-- `v[i]`: `v[0] = a` to `v[7] = h` (10_state.md R23). -/
def Vars.get (v : Vars) : Fin 8 → Word
  | 0 => v.a
  | 1 => v.b
  | 2 => v.c
  | 3 => v.d
  | 4 => v.e
  | 5 => v.f
  | 6 => v.g
  | 7 => v.h

/-- `a <- H[0]; ...; h <- H[7]` (44_compressor_round.md R180). -/
def Vars.ofHash (H : Vector Word 8) : Vars := ⟨H[0], H[1], H[2], H[3], H[4], H[5], H[6], H[7]⟩

/-- One round on the working variables, all eight assignments simultaneous (44_compressor_round.md R181, R182). -/
def roundVars (v : Vars) (k w : Word) : Vars :=
  let t1 := add32 [v.h, bsig1 v.e, ch v.e v.f v.g, k, w]
  let t2 := add32 [bsig0 v.a, maj v.a v.b v.c]
  { a := add32 [t1, t2], b := v.a, c := v.b, d := v.c, e := add32 [v.d, t1], f := v.e, g := v.f, h := v.g }

/-- `H[i] <- add32(H[i], v[i])` for every `i` (45_compressor_state.md R191). -/
@[irreducible] def mixHash (H : Vector Word 8) (v : Vars) : Vector Word 8 := Vector.ofFn fun i => add32 [H.get i, v.get i]

/-- The 32 bytes of a hash state: byte `4i + j` is bits `31 - 8j` down to `24 - 8j` of `H[i]` (30_encoding.md R94). -/
@[irreducible] def digestBytes (H : Vector Word 8) : Vector Byte 32 :=
  Vector.ofFn fun n => byteBe32 (H.get ⟨n.val / 4, by omega⟩) (n.val % 4)

end Sys2Proof.Machine
end

