-- ==== Sys2Proof/Machine/Parser.lean ====
section
/-! DEFINITION. The Block Parser's operations PARSECHK, BLOAD and PARSE (42_block_parser.md). -/

namespace Sys2Proof.Machine

/-- PARSECHK: the Parser's precondition, `NB <- PLEN[61:6]`, `BI <- 0` (42_block_parser.md R163). -/
def execParsechk (s : State) : Result :=
  .next (if s.PLEN.toNat % 64 ≠ 0 then raise .invalidBlockLength s
    else { s with NB := s.PLEN.extractLsb' 6 56, BI := 0, PHASE := .hinit })

/-- BLOAD: `BLK[j] <- PM(64 * BI + j)` for all 64 `j`, `T <- 0` (42_block_parser.md R164). It stops where PM is not
defined (20_memory.md R62) and where the platform has no such Message byte (93_implementation_defined.md U5, log 13). -/
def execBload (s : State) : Result :=
  if blockInPadded s then
    if blockReadsBeyondCap s then .fault .msgBeyondCap
    else .next { s with BLK := paddedBlock s, T := 0, PHASE := .wload }
  else .fault .paddedIndexOutOfRange

/-- PARSE: `PARSECHK`; its BLOADs are "issued from inside COMPRESS's loop" (42_block_parser.md R160, 30_encoding.md R105). -/
def execParse (s : State) : Result := execParsechk s

end Sys2Proof.Machine
end

