-- ==== Sys2Proof/Machine/Round.lean ====
section
/-! DEFINITION. The round function: VINIT and ROUND (44_compressor_round.md). -/

namespace Sys2Proof.Machine

/-- VINIT: `a..h <- H[0..7]`, `T <- 0` (44_compressor_round.md R180). -/
def execVinit (s : State) : Result := .next { s with v := Vars.ofHash s.H, T := 0, PHASE := .round }

/-- ROUND: one round with `K[t]` and `W[t]`; at `t = 63` on to HMIX with T unchanged (44_compressor_round.md R181). -/
def execRound (t : BitVec 6) (s : State) : Result :=
  let s' := { s with v := roundVars s.v (K (wordIndex t)) (s.W.get (wordIndex t)) }
  .next (if t = 63 then { s' with PHASE := .hmix } else { s' with T := t + 1, PHASE := .round })

end Sys2Proof.Machine
end

