-- ==== Sys2Proof/Machine/Schedule.lean ====
section
/-! DEFINITION. The message-schedule expansion: WLOAD and WEXP (43_compressor_schedule.md). -/

namespace Sys2Proof.Machine

/-- WLOAD: `W[t] <- be32(BLK[4t .. 4t+3])`; at `t = 15`, `T <- 16` and on to WEXP (43_compressor_schedule.md R171). -/
def execWload (t : BitVec 4) (s : State) : Result :=
  let s' := setW s (wordIndex (t.setWidth 6)) (blockWord s t)
  .next (if t = 15 then { s' with T := 16, PHASE := .wexp } else { s' with T := t.setWidth 6 + 1, PHASE := .wload })

/-- WEXP: `W[t]` from the four taps; at `t = 63` on to VINIT with T unchanged (43_compressor_schedule.md R172). A word
with `t < 16` is "unreachable; treat as stuck" (30_encoding.md R102, log 10). -/
def execWexp (t : BitVec 6) (s : State) : Result :=
  if 16 ≤ t.toNat then
    let s' := setW s (wordIndex t) (expandedWord s t)
    .next (if t = 63 then { s' with PHASE := .vinit } else { s' with T := t + 1, PHASE := .wexp })
  else .fault .stuckUnreachableWord

end Sys2Proof.Machine
end

