-- ==== Sys2Proof/Machine/HashState.lean ====
section
/-! DEFINITION. The hash state: HINIT, HMIX, DOUT and COMPRESS (45_compressor_state.md). -/

namespace Sys2Proof.Machine

/-- HINIT: `H <- H0`; on to DOUT when there is no block (45_compressor_state.md R190). -/
def execHinit (s : State) : Result :=
  .next { s with H := H0, PHASE := if s.BI = s.NB then .dout else .bload }

/-- HMIX: `H[i] <- add32(H[i], v[i])`, `BI <- BI + 1` (45_compressor_state.md R191). -/
def execHmix (s : State) : Result :=
  .next { s with H := mixHash s.H s.v, BI := s.BI + 1, PHASE := if s.BI + 1 = s.NB then .dout else .bload }

/-- DOUT: the eight words of `H` as 32 big-endian bytes (45_compressor_state.md R192). -/
def execDout (s : State) : Result := .next { s with DIGEST := digestBytes s.H, PHASE := .done }

/-- `f t ; f (t+1) ; ... ; f (t+n-1)`, an indexed run of one micro-operation (30_encoding.md R105). -/
def runIndices (f : Nat → State → Result) (t : Nat) : Nat → State → Result
  | 0, s => .next s
  | n + 1, s => chain (f t s) (runIndices f (t + 1) n)

/-- The body of COMPRESS's loop: `BLOAD ; WLOAD 0 ... WLOAD 15 ; WEXP 16 ... WEXP 63 ; VINIT ; ROUND 0 ... ROUND 63 ;
HMIX` (30_encoding.md R105). -/
def runBlock (s : State) : Result :=
  chain (execBload s) fun s =>
  chain (runIndices (fun t => execWload (BitVec.ofNat 4 t)) 0 16 s) fun s =>
  chain (runIndices (fun t => execWexp (BitVec.ofNat 6 t)) 16 48 s) fun s =>
  chain (execVinit s) fun s =>
  chain (runIndices (fun t => execRound (BitVec.ofNat 6 t)) 0 64 s) execHmix

/-- `f`, `n` times over. -/
def runTimes (f : State → Result) : Nat → State → Result
  | 0, s => .next s
  | n + 1, s => chain (f s) (runTimes f n)

/-- The loop of COMPRESS, `n` blocks (30_encoding.md R105). -/
def runBlocks (n : Nat) (s : State) : Result := runTimes runBlock n s

/-- How many blocks the loop of COMPRESS runs: from BI until it equals NB, one more each time (30_encoding.md R105,
log 15). -/
def blocksLeft (s : State) : Nat := (s.NB - s.BI).toNat

/-- COMPRESS: `HINIT ; for BI from 0 to NB - 1: block ; DOUT` (45_compressor_state.md R193, 30_encoding.md R105). -/
def execCompress (s : State) : Result :=
  chain (execHinit s) fun s' => chain (runBlocks (blocksLeft s) s') execDout

end Sys2Proof.Machine
end

