-- ==== Sys2Proof/Machine/Padder.lean ====
section
/-! DEFINITION. The Padder's operations LENCHK, PADLEN and PAD (41_padder.md). -/

namespace Sys2Proof.Machine

/-- LENCHK: `MSG_LEN >= 2^61` raises OverflowError, else `LBITS <- MSG_LEN * 8` (41_padder.md R148). -/
def execLenchk (s : State) : Result :=
  .next (if 2 ^ 61 ≤ msgLength s then raise .overflow s
    else { s with LBITS := s.MSG_LEN <<< 3, PHASE := .padlen })

/-- `k'` of PADLEN (41_padder.md R149). -/
abbrev padlenCount (s : State) : Nat := padCount s.LBITS.toNat

/-- `plen'` of PADLEN (41_padder.md R149). -/
abbrev padlenLength (s : State) : Nat := msgLength s + 1 + padlenCount s + 8

/-- PADLEN: the padding count, the padded length and the Padder's postcondition (41_padder.md R149). The 62-bit
register PLEN takes the low 62 bits, all there are when `MSG_LEN < 2^61` (10_state.md R31, log 12). -/
def execPadlen (s : State) : Result :=
  .next (if padlenLength s % 64 ≠ 0 then raise .padding s
    else { s with KPAD := BitVec.ofNat 6 (padlenCount s), PLEN := BitVec.ofNat 62 (padlenLength s), PHASE := .parsechk })

/-- PAD: `LENCHK ; PADLEN`, after which PM holds the Padded Message (41_padder.md R140, 30_encoding.md R105). -/
def execPad (s : State) : Result := chainUnlessError (execLenchk s) execPadlen

end Sys2Proof.Machine
end

