-- ==== Sys2Proof/Machine/TopLevel.lean ====
section
/-! DEFINITION. The top level: START, SHA256, the phases without an operation and the reserved ones
(46_top_level.md, 30_encoding.md R102). -/

namespace Sys2Proof.Machine

/-- START: accepted in IDLE, DONE and ERROR, in every other phase "no state changes" (46_top_level.md R201). -/
def execStart (s : State) : Result :=
  .next (if acceptsStart s then { invalidateDigest s with PHASE := .lenchk, ERRCODE := .none, T := 0 } else s)

/-- IDLE: "changes nothing" (46_top_level.md R203, log 17). -/
def execIdle (s : State) : Result := .next s

/-- DONE: "changes nothing" (46_top_level.md R203, log 17). -/
def execDone (s : State) : Result := .next s

/-- ERROR: "changes nothing" (46_top_level.md R203, log 17). -/
def execError (s : State) : Result := .next s

/-- RESERVED_E: "no step is enabled (the engine is stuck)" (30_encoding.md R102, log 11). -/
def execReservedE (_s : State) : Result := .fault .stuckReservedPhase

/-- RESERVED_F: "no step is enabled (the engine is stuck)" (30_encoding.md R102, log 11). -/
def execReservedF (_s : State) : Result := .fault .stuckReservedPhase

/-- SHA256: `PAD ; PARSE ; COMPRESS`, ended early by an error (46_top_level.md R200, 30_encoding.md R105). -/
def execSha256 (s : State) : Result :=
  chainUnlessError (execPad s) fun s => chainUnlessError (execParse s) execCompress

end Sys2Proof.Machine
end

