-- ==== Sys2Proof/Machine/Dispatch.lean ====
section
/-! DEFINITION. The meaning of every row of the opcode table, one arm each. -/

namespace Sys2Proof.Machine

def exec (i : Instr) (s : State) : Host.Outcome State Fault Refusal :=
  match i with
  | .start => Sys2Proof.Machine.execStart s
  | .lenchk => Sys2Proof.Machine.execLenchk s
  | .padlen => Sys2Proof.Machine.execPadlen s
  | .parsechk => Sys2Proof.Machine.execParsechk s
  | .hinit => Sys2Proof.Machine.execHinit s
  | .bload => Sys2Proof.Machine.execBload s
  | .wload t => Sys2Proof.Machine.execWload t s
  | .wexp t => Sys2Proof.Machine.execWexp t s
  | .vinit => Sys2Proof.Machine.execVinit s
  | .round t => Sys2Proof.Machine.execRound t s
  | .hmix => Sys2Proof.Machine.execHmix s
  | .dout => Sys2Proof.Machine.execDout s
  | .idle => Sys2Proof.Machine.execIdle s
  | .done => Sys2Proof.Machine.execDone s
  | .error => Sys2Proof.Machine.execError s
  | .reservedE => Sys2Proof.Machine.execReservedE s
  | .reservedF => Sys2Proof.Machine.execReservedF s
  | .pad => Sys2Proof.Machine.execPad s
  | .parse => Sys2Proof.Machine.execParse s
  | .compress => Sys2Proof.Machine.execCompress s
  | .sha256 => Sys2Proof.Machine.execSha256 s

end Sys2Proof.Machine
end

