-- ==== Sys2Proof/Machine/HostPort.lean ====
section
/-! DEFINITION. The host's moves (46_top_level.md R201, R204 to R207, R212), the engine's own step (R202) and placing
a word to be run. -/

namespace Sys2Proof.Machine

/-- A value returned to the host. -/
def returnToHost (r : ReadValue) (s : State) : State := { s with reads := r :: s.reads }

/-- What a read of `DIGEST:i` returns: the digest byte in DONE, else an unspecified value (46_top_level.md R205,
93_implementation_defined.md U3, log 3). -/
def digestRead (s : State) (i : Fin 32) : Byte :=
  if s.PHASE = .done then s.DIGEST.get i else Config.digestNotDone s.draws s.BI (controllerWord s) i

/-- `write MSG:i, v`: enabled for `i < MSG_CAP`, and while BUSY only at `i >= L` (46_top_level.md R207, R212, log 14). -/
def hostWriteMsg (i : Nat) (v : Byte) (s : State) : Result :=
  if s.MSG_CAP.val ≤ i then .fault .msgBeyondCap
  else if busy s && decide (i < msgLength s) then .refused .messageWriteWhileBusy
  else .next (writeMsg s i v)

/-- `write MSG_LEN, v`: stored while not BUSY, ignored while BUSY (46_top_level.md R206). -/
def hostWriteMsgLen (v : BitVec 64) (s : State) : Result :=
  .next (if busy s then s else { s with MSG_LEN := v })

/-- `write CTRL, v`: the command `v` decodes to; a reserved value is ignored (10_state.md R37, 30_encoding.md R102). -/
def hostWriteCtrl (v : BitVec 8) (s : State) : Result :=
  match decode (.command v) with
  | .row i => exec i s
  | .noRow _ => .next s

/-- Every host move of 46_top_level.md R212. -/
def hostMove (m : HostMove) (s : State) : Result :=
  match m with
  | .writeMsg i v => hostWriteMsg i v s
  | .writeMsgLen v => hostWriteMsgLen v s
  | .readMsgLen => .next (returnToHost (.msgLen s.MSG_LEN) s)
  | .writeCtrl v => hostWriteCtrl v s
  | .readCtrl => .next (returnToHost (.ctrl 0x00#8) s)
  | .readStatus => .next (returnToHost (.status (status s)) s)
  | .writeStatus _ => .next s
  | .readDigest i => .next (returnToHost (.digest i (digestRead s i)) s)
  | .writeDigest _ _ => .next s
  | .reset => .next (resetEngine s)

/-- One step of the engine: the operation the controller word decodes to (46_top_level.md R202, 30_encoding.md R100);
a word that selects no row leaves it stuck (R102). -/
def engineStep (s : State) : Result :=
  match decode (.uop (controllerWord s)) with
  | .row i => exec i s
  | .noRow _ => .fault .stuckUnreachableWord

/-- The next input, taken from the list (log 7). -/
def takeInput (s : State) (rest : List Input) : State := { s with inputs := rest }

/-- Placing a control word where the next step takes it: a command as the host's next write of CTRL, a controller word
in the registers PHASE and T with the engine's turn next (log 18). -/
def placeWord (c : ControlWord) (s : State) : State :=
  match c with
  | .command v => { s with inputs := .host (.writeCtrl v) :: s.inputs }
  | .uop w => { s with PHASE := Phase.ofCode (uopPhase w), T := uopT w, inputs := .engine :: s.inputs }

end Sys2Proof.Machine
end

