-- ==== Sys2Proof/Machine/Step.lean ====
section
/-! DEFINITION. One step of the machine: the host move that is next, or one step of the engine (10_state.md R20). -/

namespace Sys2Proof.Machine

/-- The first pending input, or the engine's own step when none is pending (log 7). -/
def step (s : State) : Host.Outcome State Fault Refusal :=
  match s.inputs with
  | [] => engineStep s
  | .engine :: rest => engineStep (takeInput s rest)
  | .host m :: rest => hostMove m (takeInput s rest)

/-- `s` with the row's word placed so that the next step runs exactly it (log 18); bits that are no control word
change nothing. -/
def State.withFetchWord (s : State) (nbits w : Nat) : State :=
  match tableControlWord nbits w with
  | some c => placeWord c s
  | none => s

end Sys2Proof.Machine
end

