-- ==== Sys2Proof/Machine/Contract.lean ====
section
/-! DEFINITION. The four stage contracts as pure functions of byte sequences (41_padder.md R140, 42_block_parser.md
R160, 45_compressor_state.md R193, 46_top_level.md R200): the functional description that is normative (00_scope.md
R7) and that the micro-operations refine (46_top_level.md R208). -/

namespace Sys2Proof.Machine.Contract

/-- A Block: 64 bytes (30_encoding.md R91). -/
abbrev Block := Vector Byte 64

/-- The Padded Message: `m ++ [0x80] ++ (k bytes 0x00) ++ bytes_be64(l)` (41_padder.md R140). -/
def padded (m : List Byte) : List Byte :=
  m ++ [0x80#8] ++ List.replicate (padCount (8 * m.length)) 0x00#8 ++ bytesBe64 (BitVec.ofNat 64 (8 * m.length))

/-- PAD with its precondition and its postcondition (41_padder.md R140, R142, R146). -/
def pad (m : List Byte) : Except ErrorCode (List Byte) :=
  if 2 ^ 64 - 1 < 8 * m.length then .error .overflow
  else if (padded m).length % 64 ≠ 0 then .error .padding
  else .ok (padded m)

/-- `B[j] = p[64j .. 64j + 63]` (42_block_parser.md R160). -/
def block (p : List Byte) (j : Nat) : Block := Vector.ofFn fun i => p.getD (64 * j + i.val) 0

/-- PARSE with its precondition (42_block_parser.md R160, R161). -/
def parse (p : List Byte) : Except ErrorCode (List Block) :=
  if p.length % 64 ≠ 0 then .error .invalidBlockLength
  else .ok ((List.range (p.length / 64)).map (block p))

/-- `W[0]` to `W[15]` of a Block (43_compressor_schedule.md R170). -/
def firstWords (B : Block) : List Word :=
  (List.finRange 16).map fun t =>
    be32 (B.get ⟨4 * t.val, by omega⟩) (B.get ⟨4 * t.val + 1, by omega⟩)
      (B.get ⟨4 * t.val + 2, by omega⟩) (B.get ⟨4 * t.val + 3, by omega⟩)

/-- `W[t]` from the words before it, `t >= 16` (43_compressor_schedule.md R170). -/
def nextWord (ws : List Word) (t : Nat) : Word :=
  add32 [ssig0 (ws.getD (t - 15) 0), ssig1 (ws.getD (t - 2) 0), ws.getD (t - 7) 0, ws.getD (t - 16) 0]

/-- `W[0]` to `W[15 + n]` (43_compressor_schedule.md R170). -/
def scheduleUpTo (B : Block) : Nat → List Word
  | 0 => firstWords B
  | n + 1 => scheduleUpTo B n ++ [nextWord (scheduleUpTo B n) (16 + n)]

/-- The 64 words of the Message Schedule (43_compressor_schedule.md R170). -/
@[irreducible] def schedule (B : Block) : List Word := scheduleUpTo B 48

/-- The 64 rounds of one Block (45_compressor_state.md R194). -/
@[irreducible] def rounds (S : Vector Word 8) (B : Block) : Vars :=
  (List.finRange 64).foldl (fun v t => roundVars v (K t) ((schedule B).getD t.val 0)) (Vars.ofHash S)

/-- `CB(S, B)`, the compression function (45_compressor_state.md R194). -/
@[irreducible] def CB (S : Vector Word 8) (B : Block) : Vector Word 8 := mixHash S (rounds S B)

/-- `bytes_be32(S[0]) ++ ... ++ bytes_be32(S[7])` (45_compressor_state.md R193). -/
def serialise (S : Vector Word 8) : List Byte :=
  bytesBe32 S[0] ++ bytesBe32 S[1] ++ bytesBe32 S[2] ++ bytesBe32 S[3] ++ bytesBe32 S[4] ++ bytesBe32 S[5] ++
    bytesBe32 S[6] ++ bytesBe32 S[7]

/-- COMPRESS: the blocks folded into `H0` in order (45_compressor_state.md R193). -/
@[irreducible] def compress (bs : List Block) : List Byte := serialise (bs.foldl CB H0)

/-- SHA256: `compress(parse(pad(m)))` (46_top_level.md R200). -/
def sha256 (m : List Byte) : Except ErrorCode (List Byte) :=
  match pad m with
  | .error e => .error e
  | .ok p =>
    match parse p with
    | .error e => .error e
    | .ok bs => .ok (compress bs)

end Sys2Proof.Machine.Contract
end

