-- ==== Sys2Proof/Safety.lean ====
section
/-! DEFINITION. What counts as a safe run of the engine, in the terms the statements use: the Message of a state, the
launch premises, and the invariant of the reachable states. -/

namespace Sys2Proof.Machine

/-- The Message: `MSG:0` to `MSG:L-1` (20_memory.md R61). -/
def message (s : State) : List Byte := (List.range (msgLength s)).map (msgByte s)

/-- The premise `MSG_IN_RANGE` of 46_top_level.md R213. -/
def messageInRange (s : State) : Prop := msgLength s ≤ s.MSG_CAP.val ∨ 2 ^ 61 ≤ msgLength s

/-- What LENCHK leaves true for the rest of an invocation (41_padder.md R148). -/
def lengthChecked (s : State) : Prop := msgLength s < 2 ^ 61 ∧ s.LBITS.toNat = 8 * msgLength s

/-- What PADLEN leaves true for the rest of an invocation (41_padder.md R144, R149). -/
def paddingComputed (s : State) : Prop :=
  lengthChecked s ∧ s.KPAD.toNat = (119 - msgLength s % 64) % 64 ∧ s.PLEN.toNat = msgLength s + 1 + s.KPAD.toNat + 8

/-- What PARSECHK leaves true for the rest of an invocation (42_block_parser.md R163). -/
def blocksCounted (s : State) : Prop := paddingComputed s ∧ 64 * s.NB.toNat = s.PLEN.toNat

/-- What holds before each micro-operation of an invocation, by PHASE (46_top_level.md R202, 10_state.md R31 to R34). -/
def phaseInvariant (s : State) : Prop :=
  match s.PHASE with
  | .idle | .lenchk | .done | .error => True
  | .padlen => lengthChecked s
  | .parsechk => paddingComputed s
  | .hinit => blocksCounted s ∧ s.BI.toNat = 0
  | .bload | .vinit | .round | .hmix => blocksCounted s ∧ s.BI.toNat < s.NB.toNat
  | .wload => blocksCounted s ∧ s.BI.toNat < s.NB.toNat ∧ s.T.toNat < 16
  | .wexp => blocksCounted s ∧ s.BI.toNat < s.NB.toNat ∧ 16 ≤ s.T.toNat
  | .dout => blocksCounted s ∧ s.BI = s.NB
  | .reservedE | .reservedF => False

/-- The error registers: ERRCODE is 0 outside ERROR, and in ERROR it is OverflowError's, the only error that can be
raised (10_state.md R38, 60_exceptions.md R234). -/
def errorInvariant (s : State) : Prop :=
  if s.PHASE = .error then s.ERRCODE = .overflow else s.ERRCODE = .none

/-- MSG keeps its canonical form and lists no byte the platform does not have (20_memory.md R61). -/
def memoryInvariant (s : State) : Prop := Memory.wf s.MSG ∧ ∀ c ∈ s.MSG, c.1 < s.MSG_CAP.val

/-- The invariant of the machine. -/
def StateInv (s : State) : Prop := memoryInvariant s ∧ errorInvariant s ∧ phaseInvariant s

end Sys2Proof.Machine
end

