-- ==== Sys2Proof/Certificates/Slice0/Obligations.lean ====
section
/-! DEFINITION. The statements about the machine, each from a rule of spec/ named in its docstring. Where a statement
writes `t = { s with X := t.X, ... }` it says that every field of the state but the listed ones is unchanged, MSG,
BLK and DIGEST with all their bytes among them; "every byte of MSG reads as before" is said beside it through
`msgByte`. -/

open Sys2Proof Sys2Proof.Machine

/-! ## Encodings -/

/-- 30_encoding.md R98, R100, R101: decoding the word of a well-formed operation gives it back, and the operations
without a word are the macro-operations (R97). -/
def Obligations.DecodeEncodeAgree : Prop :=
  ∀ i : Instr, i.WellFormed →
    (∀ w, encode i = some w → decode w = .row i) ∧
    (encode i = none ↔ i = .pad ∨ i = .parse ∨ i = .compress ∨ i = .sha256)

/-- 30_encoding.md R98, R100, R101: encoding a decoded operation gives the word back in every bit the decoder looks at:
all eight of a command, the phase of a controller word, and its `t` where the operation has an index. -/
def Obligations.EncodeDecodeKeepsEveryReadBit : Prop :=
  (∀ v i, decode (.command v) = .row i → encode i = some (.command v)) ∧
  (∀ w i, decode (.uop w) = .row i →
    ∃ u : BitVec 10, encode i = some (.uop u) ∧ u.toNat / 64 = w.toNat / 64 ∧
      (((∃ t, i = .wload t) ∨ (∃ t, i = .wexp t) ∨ (∃ t, i = .round t)) → u = w))

/-- 30_encoding.md R101: "a word `u` selects the row when `u & mask = match`", for every row of format U, and the
words of phase 6 that match no row are rejected (R102). -/
def Obligations.WordSelectsItsTableRow : Prop :=
  ∀ u : BitVec 10,
    (u &&& 0x3c0#10 = 0x000#10 → decode (.uop u) = .row .idle) ∧
    (u &&& 0x3c0#10 = 0x040#10 → decode (.uop u) = .row .lenchk) ∧
    (u &&& 0x3c0#10 = 0x080#10 → decode (.uop u) = .row .padlen) ∧
    (u &&& 0x3c0#10 = 0x0c0#10 → decode (.uop u) = .row .parsechk) ∧
    (u &&& 0x3c0#10 = 0x100#10 → decode (.uop u) = .row .hinit) ∧
    (u &&& 0x3c0#10 = 0x140#10 → decode (.uop u) = .row .bload) ∧
    (u &&& 0x3f0#10 = 0x180#10 → decode (.uop u) = .row (.wload (BitVec.ofNat 4 (u.toNat % 16)))) ∧
    (u &&& 0x3c0#10 = 0x180#10 → u &&& 0x3f0#10 ≠ 0x180#10 → decode (.uop u) = .noRow .unreachableWload) ∧
    (u &&& 0x3c0#10 = 0x1c0#10 → decode (.uop u) = .row (.wexp (BitVec.ofNat 6 (u.toNat % 64)))) ∧
    (u &&& 0x3c0#10 = 0x200#10 → decode (.uop u) = .row .vinit) ∧
    (u &&& 0x3c0#10 = 0x240#10 → decode (.uop u) = .row (.round (BitVec.ofNat 6 (u.toNat % 64)))) ∧
    (u &&& 0x3c0#10 = 0x280#10 → decode (.uop u) = .row .hmix) ∧
    (u &&& 0x3c0#10 = 0x2c0#10 → decode (.uop u) = .row .dout) ∧
    (u &&& 0x3c0#10 = 0x300#10 → decode (.uop u) = .row .done) ∧
    (u &&& 0x3c0#10 = 0x340#10 → decode (.uop u) = .row .error) ∧
    (u &&& 0x3c0#10 = 0x380#10 → decode (.uop u) = .row .reservedE) ∧
    (u &&& 0x3c0#10 = 0x3c0#10 → decode (.uop u) = .row .reservedF)

/-- 95_test_vectors.md P1, P2: words of real runs, written out from the patterns of 30_encoding.md R101. -/
def Obligations.SampleWordsDecode : Prop :=
  decode (.command 0b00000001#8) = .row .start ∧
  decode (.uop 0b0001000000#10) = .row .lenchk ∧ decode (.uop 0b0011000000#10) = .row .parsechk ∧
  decode (.uop 0b0110000101#10) = .row (.wload 5) ∧ decode (.uop 0b0111010000#10) = .row (.wexp 16) ∧
  decode (.uop 0b1000111111#10) = .row .vinit ∧ decode (.uop 0b1001111111#10) = .row (.round 63) ∧
  decode (.uop 0b1010111111#10) = .row .hmix ∧ decode (.uop 0b0101111111#10) = .row .bload

/-! ## The step -/

/-- 46_top_level.md R202, 30_encoding.md R100: the engine's step runs the operation its controller word decodes to,
whether it is the engine's turn because nothing is pending or because the pending list says so (log 7). -/
def Obligations.StepRunsTheDecodedOperation : Prop :=
  ∀ (s : State) (i : Instr), decode (.uop (packUop s.PHASE.code s.T)) = .row i →
    (s.inputs = [] → step s = exec i s) ∧
    (∀ rest, s.inputs = .engine :: rest → step s = exec i { s with inputs := rest })

/-- 30_encoding.md R98, R102, 46_top_level.md R212: a host write of 0x01 to CTRL runs START; a write of any other value
changes nothing but the pending list it is taken from. -/
def Obligations.CtrlWriteIsACommandOrIgnored : Prop :=
  ∀ (s : State) (v : BitVec 8) (rest : List Input), s.inputs = .host (.writeCtrl v) :: rest →
    (v = 0x01#8 → step s = exec .start { s with inputs := rest }) ∧
    (v ≠ 0x01#8 → step s = .next { s with inputs := rest })

/-- The model's convention for running one row's word (log 18): a placed command word and a placed controller word run
their operation at the very next step. -/
def Obligations.PlacedWordRunsNext : Prop :=
  ∀ s : State,
    step (s.withFetchWord 8 0x01) = exec .start s ∧
    ∀ (w : BitVec 10) (i : Instr), decode (.uop w) = .row i →
      step (s.withFetchWord 16 w.toNat) =
        exec i { s with PHASE := Phase.ofCode (w.extractLsb' 6 4), T := w.extractLsb' 0 6 }

/-- 30_encoding.md R102, R203 of 46_top_level.md: "they are stuck": the reserved phases and the controller words
(WLOAD, T >= 16) and (WEXP, T < 16) have no step; the model stops by name (logs 10, 11). -/
def Obligations.ReservedAndUnreachableWordsAreStuck : Prop :=
  ∀ s : State,
    exec .reservedE s = .fault .stuckReservedPhase ∧ exec .reservedF s = .fault .stuckReservedPhase ∧
    (∀ t : BitVec 6, t.toNat < 16 → exec (.wexp t) s = .fault .stuckUnreachableWord) ∧
    (s.inputs = [] → s.PHASE = .wload → 16 ≤ s.T.toNat → step s = .fault .stuckUnreachableWord) ∧
    (s.inputs = [] → s.PHASE = .wexp → s.T.toNat < 16 → step s = .fault .stuckUnreachableWord)

/-! ## Word functions -/

/-- 40_word_functions.md R120: the sum modulo 2^32, whatever the order and the grouping of the operands. -/
def Obligations.Add32IsTheSumModulo : Prop :=
  (∀ xs : List Word, (add32 xs).toNat = (xs.map BitVec.toNat).sum % 2 ^ 32) ∧
  (∀ xs ys : List Word, xs.Perm ys → add32 xs = add32 ys) ∧
  (∀ xs ys : List Word, add32 (xs ++ ys) = add32 [add32 xs, add32 ys])

/-- 40_word_functions.md R121, R122: result bit `i` of a rotation is bit `(i + n) mod 32` of the operand, and the number
of one bits is kept; a shift is the division by `2^n`, so the high bits are 0. -/
def Obligations.RotateMovesBitsAndShiftDivides : Prop :=
  ∀ (x : Word) (n : Nat), 1 ≤ n → n ≤ 31 →
    (∀ i, i < 32 → (rotr x n).getLsbD i = x.getLsbD ((i + n) % 32)) ∧
    (List.range 32).countP (rotr x n).getLsbD = (List.range 32).countP x.getLsbD ∧
    (shr x n).toNat = x.toNat / 2 ^ n

/-- 40_word_functions.md R124, R125: "where `x` has a 1 the result takes the bit of `y`, where `x` has a 0 the bit of
`z`"; "the value that at least two of the three bits have". -/
def Obligations.ChSelectsAndMajVotes : Prop :=
  ∀ (x y z : Word) (i : Nat), i < 32 →
    (ch x y z).getLsbD i = (if x.getLsbD i then y.getLsbD i else z.getLsbD i) ∧
    (maj x y z).getLsbD i =
      decide (2 ≤ (x.getLsbD i).toNat + (y.getLsbD i).toNat + (z.getLsbD i).toNat)

/-- 40_word_functions.md R126 to R129 bit by bit: the third term of the small sigmas is a shift, which brings in no bit
from beyond bit 31. -/
def Obligations.SigmaBits : Prop :=
  ∀ (x : Word) (i : Nat), i < 32 →
    (bsig0 x).getLsbD i = (x.getLsbD ((i + 2) % 32) ^^ x.getLsbD ((i + 13) % 32) ^^ x.getLsbD ((i + 22) % 32)) ∧
    (bsig1 x).getLsbD i = (x.getLsbD ((i + 6) % 32) ^^ x.getLsbD ((i + 11) % 32) ^^ x.getLsbD ((i + 25) % 32)) ∧
    (ssig0 x).getLsbD i =
      (x.getLsbD ((i + 7) % 32) ^^ x.getLsbD ((i + 18) % 32) ^^ (decide (i + 3 < 32) && x.getLsbD (i + 3))) ∧
    (ssig1 x).getLsbD i =
      (x.getLsbD ((i + 17) % 32) ^^ x.getLsbD ((i + 19) % 32) ^^ (decide (i + 10 < 32) && x.getLsbD (i + 10)))

/-- 40_word_functions.md R130, R131: the number four bytes and eight bytes spell, the lowest index most significant, and
the four bytes of a word. -/
def Obligations.BigEndianNumbersAndWordBytes : Prop :=
  (∀ b0 b1 b2 b3 : Byte, (be32 b0 b1 b2 b3).toNat =
      b0.toNat * 2 ^ 24 + b1.toNat * 2 ^ 16 + b2.toNat * 2 ^ 8 + b3.toNat ∧
    bytesBe32 (be32 b0 b1 b2 b3) = [b0, b1, b2, b3]) ∧
  (∀ b0 b1 b2 b3 b4 b5 b6 b7 : Byte, (be64 b0 b1 b2 b3 b4 b5 b6 b7).toNat =
      b0.toNat * 2 ^ 56 + b1.toNat * 2 ^ 48 + b2.toNat * 2 ^ 40 + b3.toNat * 2 ^ 32 +
      b4.toNat * 2 ^ 24 + b5.toNat * 2 ^ 16 + b6.toNat * 2 ^ 8 + b7.toNat) ∧
  (∀ x : Word, be32 (byteBe32 x 0) (byteBe32 x 1) (byteBe32 x 2) (byteBe32 x 3) = x ∧ (bytesBe32 x).length = 4 ∧
    ∀ j, j < 4 → (byteBe32 x j).toNat = x.toNat / 2 ^ (24 - 8 * j) % 256 ∧ (bytesBe32 x)[j]? = some (byteBe32 x j))

/-- 40_word_functions.md R132: the eight bytes of a 64-bit number, most significant first; read back they give it. -/
def Obligations.BigEndianLengthRoundTrip : Prop :=
  ∀ x : BitVec 64,
    (bytesBe64 x).length = 8 ∧
    (∀ j, j < 8 → (byteBe64 x j).toNat = x.toNat / 2 ^ (56 - 8 * j) % 256 ∧ (bytesBe64 x)[j]? = some (byteBe64 x j)) ∧
    be64 (byteBe64 x 0) (byteBe64 x 1) (byteBe64 x 2) (byteBe64 x 3) (byteBe64 x 4) (byteBe64 x 5) (byteBe64 x 6)
      (byteBe64 x 7) = x

/-- 10_state.md R25, R39, as the spec audits its two tables: `K[t]` is the first 32 bits of the fractional part of the
cube root of the `(t+1)`-th prime `p`, `H0[i]` that of the square root of the `(i+1)`-th prime. -/
def Obligations.ConstantTablesAreRootsOfPrimes : Prop :=
  (∀ (t : Fin 64) (p c : Nat), p.Prime → Nat.count Nat.Prime p = t.val → c ^ 3 ≤ p → p < (c + 1) ^ 3 →
    (2 ^ 32 * c + (K t).toNat) ^ 3 ≤ p * 2 ^ 96 ∧ p * 2 ^ 96 < (2 ^ 32 * c + (K t).toNat + 1) ^ 3) ∧
  (∀ (i : Fin 8) (p c : Nat), p.Prime → Nat.count Nat.Prime p = i.val → c ^ 2 ≤ p → p < (c + 1) ^ 2 →
    (2 ^ 32 * c + (H0.get i).toNat) ^ 2 ≤ p * 2 ^ 64 ∧ p * 2 ^ 64 < (2 ^ 32 * c + (H0.get i).toNat + 1) ^ 2)

/-! ## The Padder and the Block Parser -/

/-- 41_padder.md R143, R144: both forms of the number of zero bytes, for every length. -/
def Obligations.PaddingCountForms : Prop :=
  ∀ L : Nat,
    (padCount (8 * L) : Int) = ((448 - 8 * (L : Int) - 8) % 512) / 8 ∧
    ((448 - 8 * (L : Int) - 8) % 512) % 8 = 0 ∧
    (padCount (8 * L) : Int) = (55 - ((L % 64 : Nat) : Int)) % 64 ∧
    (padCount (8 * L) : Int) = (55 - (L : Int)) % 64 ∧
    padCount (8 * L) ≤ 63 ∧
    (L % 64 ≤ 55 → padCount (8 * L) = 55 - L % 64) ∧
    (56 ≤ L % 64 → padCount (8 * L) = 119 - L % 64)

/-- 41_padder.md R147 (a) to (e): the padded length is the smallest multiple of 64 that is at least `L + 9`, and the
number of blocks is `(L + 8) div 64 + 1`, one or two more than the Message fills. -/
def Obligations.PaddedLengthProperties : Prop :=
  ∀ m : List Byte, m.length < 2 ^ 61 →
    (Contract.padded m).length = m.length + 1 + padCount (8 * m.length) + 8 ∧
    (Contract.padded m).length % 64 = 0 ∧
    (Contract.padded m).length = 64 * ((m.length + 8) / 64 + 1) ∧
    m.length + 9 ≤ (Contract.padded m).length ∧ 64 ≤ (Contract.padded m).length ∧
    (∀ n, n % 64 = 0 → m.length + 9 ≤ n → (Contract.padded m).length ≤ n) ∧
    (Contract.padded m).length / 64 = (m.length + 8) / 64 + 1 ∧
    (m.length % 64 ≤ 55 → (Contract.padded m).length / 64 = m.length / 64 + 1) ∧
    (56 ≤ m.length % 64 → (Contract.padded m).length / 64 = m.length / 64 + 2)

/-- 46_top_level.md R200: SHA256 is `compress(parse(pad(m)))`, fails with OverflowError exactly when `L >= 2^61` and
otherwise gives 32 bytes, the two defensive errors never occurring; the two digests the source prints. -/
def Obligations.Sha256IsTotalWithFixedSize : Prop :=
  (∀ m : List Byte,
    (2 ^ 61 ≤ m.length → Contract.pad m = .error .overflow ∧ Contract.sha256 m = .error .overflow) ∧
    (m.length < 2 ^ 61 →
      ∃ p bs, Contract.pad m = .ok p ∧ Contract.parse p = .ok bs ∧ Contract.sha256 m = .ok (Contract.compress bs) ∧
        bs.length = (m.length + 8) / 64 + 1 ∧ (Contract.compress bs).length = 32)) ∧
  Contract.sha256 [] = .ok
    [0xe3, 0xb0, 0xc4, 0x42, 0x98, 0xfc, 0x1c, 0x14, 0x9a, 0xfb, 0xf4, 0xc8, 0x99, 0x6f, 0xb9, 0x24,
     0x27, 0xae, 0x41, 0xe4, 0x64, 0x9b, 0x93, 0x4c, 0xa4, 0x95, 0x99, 0x1b, 0x78, 0x52, 0xb8, 0x55] ∧
  Contract.sha256 [0x61, 0x62, 0x63] = .ok
    [0xba, 0x78, 0x16, 0xbf, 0x8f, 0x01, 0xcf, 0xea, 0x41, 0x41, 0x40, 0xde, 0x5d, 0xae, 0x22, 0x23,
     0xb0, 0x03, 0x61, 0xa3, 0x96, 0x17, 0x7a, 0x9c, 0xb4, 0x10, 0xff, 0x61, 0xf2, 0x00, 0x15, 0xad]

/-- 41_padder.md R148: LENCHK, controller word `0001------`, raises OverflowError or writes LBITS; nothing else changes. -/
def Obligations.LenchkChecksTheLength : Prop :=
  (∀ x : BitVec 6, decode (.uop (packUop 1 x)) = .row .lenchk) ∧
  ∀ s : State,
    (2 ^ 61 ≤ s.MSG_LEN.toNat → exec .lenchk s = .next { s with ERRCODE := .overflow, PHASE := .error }) ∧
    (s.MSG_LEN.toNat < 2 ^ 61 →
      ∃ t, exec .lenchk s = .next t ∧ t.LBITS.toNat = s.MSG_LEN.toNat * 8 ∧ t.PHASE = .padlen ∧
        t = { s with LBITS := t.LBITS, PHASE := t.PHASE } ∧ ∀ a, msgByte t a = msgByte s a)

/-- 41_padder.md R149: PADLEN, controller word `0010------`, computes the padding count and the padded length from its registers, or raises
PaddingError on its postcondition; in an invocation the count is `(55 - MSG_LEN) mod 64`, PLEN holds the whole padded
length and the error is never raised (R147 (a)). -/
def Obligations.PadlenComputesThePadding : Prop :=
  (∀ x : BitVec 6, decode (.uop (packUop 2 x)) = .row .padlen) ∧
  ∀ (s : State) (k plen : Nat), (k : Int) = ((448 - (s.LBITS.toNat : Int) - 8) % 512) / 8 →
    plen = s.MSG_LEN.toNat + 1 + k + 8 →
    (plen % 64 ≠ 0 → exec .padlen s = .next { s with ERRCODE := .padding, PHASE := .error }) ∧
    (plen % 64 = 0 →
      ∃ t, exec .padlen s = .next t ∧ t.KPAD.toNat = k ∧ (plen < 2 ^ 62 → t.PLEN.toNat = plen) ∧ t.PHASE = .parsechk ∧
        t = { s with KPAD := t.KPAD, PLEN := t.PLEN, PHASE := t.PHASE } ∧ ∀ a, msgByte t a = msgByte s a) ∧
    (s.MSG_LEN.toNat < 2 ^ 61 → s.LBITS.toNat = 8 * s.MSG_LEN.toNat →
      plen % 64 = 0 ∧ plen < 2 ^ 62 ∧ (k : Int) = (55 - (s.MSG_LEN.toNat : Int)) % 64)

/-- 42_block_parser.md R163: PARSECHK, controller word `0011------`, raises InvalidBlockLengthError or counts the blocks. -/
def Obligations.ParsechkCountsTheBlocks : Prop :=
  (∀ x : BitVec 6, decode (.uop (packUop 3 x)) = .row .parsechk) ∧
  ∀ s : State,
    (s.PLEN.toNat % 64 ≠ 0 → exec .parsechk s = .next { s with ERRCODE := .invalidBlockLength, PHASE := .error }) ∧
    (s.PLEN.toNat % 64 = 0 →
      ∃ t, exec .parsechk s = .next t ∧ t.NB.toNat = s.PLEN.toNat / 64 ∧ t.BI = 0 ∧ t.PHASE = .hinit ∧
        t = { s with NB := t.NB, BI := t.BI, PHASE := t.PHASE } ∧ ∀ a, msgByte t a = msgByte s a)

/-- 42_block_parser.md R164: where PM is defined on the block and the platform has the Message bytes it reads, BLOAD,
controller word `0101------`, completes, and every byte of BLK is the one 41_padder.md R145 gives; it reads `MSG:i` for
those `i` of its block with `i < L` "and for no other index", so a memory that agrees on them gives the same block. -/
def Obligations.BloadLoadsThePaddedBlock : Prop :=
  (∀ x : BitVec 6, decode (.uop (packUop 5 x)) = .row .bload) ∧
  ∀ s : State,
    64 * s.BI.toNat + 64 ≤ s.MSG_LEN.toNat + 1 + s.KPAD.toNat + 8 →
    (∀ j, j < 64 → 64 * s.BI.toNat + j < s.MSG_LEN.toNat → 64 * s.BI.toNat + j < s.MSG_CAP.val) →
    ∃ t, exec .bload s = .next t ∧ t.T = 0 ∧ t.PHASE = .wload ∧
      (∀ (j : Fin 64) (i : Nat), i = 64 * s.BI.toNat + j.val →
        (i < s.MSG_LEN.toNat → t.BLK.get j = msgByte s i) ∧
        (i = s.MSG_LEN.toNat → t.BLK.get j = 0x80#8) ∧
        (s.MSG_LEN.toNat < i → i ≤ s.MSG_LEN.toNat + s.KPAD.toNat → t.BLK.get j = 0x00#8) ∧
        (s.MSG_LEN.toNat + s.KPAD.toNat < i →
          (t.BLK.get j).toNat =
            s.LBITS.toNat / 2 ^ (56 - 8 * (i - (s.MSG_LEN.toNat + 1 + s.KPAD.toNat))) % 256)) ∧
      t = { s with BLK := t.BLK, T := t.T, PHASE := t.PHASE } ∧ (∀ a, msgByte t a = msgByte s a) ∧
      ∀ m : Memory,
        (∀ i, 64 * s.BI.toNat ≤ i → i < 64 * s.BI.toNat + 64 → i < s.MSG_LEN.toNat →
          msgByte { s with MSG := m } i = msgByte s i) →
        exec .bload { s with MSG := m } = .next { t with MSG := m }

/-- 20_memory.md R62 and 93_implementation_defined.md U5: where BLOAD stops, by name: an index PM does not have, else a
Message byte the platform does not have (log 13). -/
def Obligations.BloadStopsOutsideItsSpaces : Prop :=
  ∀ s : State,
    (s.MSG_LEN.toNat + 1 + s.KPAD.toNat + 8 < 64 * s.BI.toNat + 64 →
      exec .bload s = .fault .paddedIndexOutOfRange) ∧
    (64 * s.BI.toNat + 64 ≤ s.MSG_LEN.toNat + 1 + s.KPAD.toNat + 8 →
      (∃ j, j < 64 ∧ 64 * s.BI.toNat + j < s.MSG_LEN.toNat ∧ s.MSG_CAP.val ≤ 64 * s.BI.toNat + j) →
      exec .bload s = .fault .msgBeyondCap)

/-- 41_padder.md R150, 42_block_parser.md R162: after PADLEN, `PM(0)` to `PM(PLEN - 1)` is `pad(m)`, and block `BI` of
PM is the block PARSE makes of it. -/
def Obligations.PaddedMessageIsPadOfTheMessage : Prop :=
  ∀ s : State, s.MSG_LEN.toNat < 2 ^ 61 → s.LBITS.toNat = 8 * s.MSG_LEN.toNat →
    s.KPAD.toNat = padCount s.LBITS.toNat →
    Contract.pad (message s) = .ok ((List.range (s.MSG_LEN.toNat + 1 + s.KPAD.toNat + 8)).map (PM s)) ∧
    (s.BI.toNat < (s.MSG_LEN.toNat + 8) / 64 + 1 →
      paddedBlock s = Contract.block (Contract.padded (message s)) s.BI.toNat)

/-! ## The Compressor -/

/-- 43_compressor_schedule.md R171: WLOAD, controller word `011000tttt`, loads one big-endian word, leaves every other word, and counts `t`. -/
def Obligations.WloadLoadsABigEndianWord : Prop :=
  (∀ t : BitVec 4, decode (.uop (packUop 6 (0#2 ++ t))) = .row (.wload t)) ∧
  ∀ (s : State) (t : BitVec 4), ∃ s', exec (.wload t) s = .next s' ∧
    (∀ u : Fin 64, u.val = t.toNat → ∀ b0 b1 b2 b3 : Fin 64, b0.val = 4 * t.toNat → b1.val = 4 * t.toNat + 1 →
      b2.val = 4 * t.toNat + 2 → b3.val = 4 * t.toNat + 3 →
      (s'.W.get u).toNat = (s.BLK.get b0).toNat * 2 ^ 24 + (s.BLK.get b1).toNat * 2 ^ 16 +
        (s.BLK.get b2).toNat * 2 ^ 8 + (s.BLK.get b3).toNat) ∧
    (∀ u : Fin 64, u.val ≠ t.toNat → s'.W.get u = s.W.get u) ∧
    s'.T.toNat = t.toNat + 1 ∧ s'.PHASE = (if t.toNat = 15 then .wexp else .wload) ∧
    s' = { s with W := s'.W, T := s'.T, PHASE := s'.PHASE } ∧ ∀ a, msgByte s' a = msgByte s a

/-- 43_compressor_schedule.md R172: WEXP, controller word `0111tttttt`, writes the sum of its four taps modulo 2^32, leaves every other word, and counts
`t` up to 63. -/
def Obligations.WexpExpandsOneWord : Prop :=
  (∀ t : BitVec 6, 16 ≤ t.toNat → decode (.uop (packUop 7 t)) = .row (.wexp t)) ∧
  ∀ (s : State) (t : BitVec 6), 16 ≤ t.toNat → ∃ s', exec (.wexp t) s = .next s' ∧
    (∀ u u2 u7 u15 u16 : Fin 64, u.val = t.toNat → u2.val = t.toNat - 2 → u7.val = t.toNat - 7 →
      u15.val = t.toNat - 15 → u16.val = t.toNat - 16 →
      (s'.W.get u).toNat = ((ssig0 (s.W.get u15)).toNat + (ssig1 (s.W.get u2)).toNat + (s.W.get u7).toNat +
        (s.W.get u16).toNat) % 2 ^ 32) ∧
    (∀ u : Fin 64, u.val ≠ t.toNat → s'.W.get u = s.W.get u) ∧
    (t.toNat = 63 → s'.T = s.T ∧ s'.PHASE = .vinit) ∧
    (t.toNat ≠ 63 → s'.T.toNat = t.toNat + 1 ∧ s'.PHASE = .wexp) ∧
    s' = { s with W := s'.W, T := s'.T, PHASE := s'.PHASE } ∧ ∀ a, msgByte s' a = msgByte s a

/-- 44_compressor_round.md R180: VINIT, controller word `1000------`, loads the working variables from the hash state and leaves it. -/
def Obligations.VinitLoadsTheWorkingVariables : Prop :=
  (∀ x : BitVec 6, decode (.uop (packUop 8 x)) = .row .vinit) ∧
  ∀ s : State, ∃ t, exec .vinit s = .next t ∧
    [t.v.a, t.v.b, t.v.c, t.v.d, t.v.e, t.v.f, t.v.g, t.v.h] = s.H.toList ∧ t.T = 0 ∧ t.PHASE = .round ∧
    t = { s with v := t.v, T := t.T, PHASE := t.PHASE } ∧ ∀ a, msgByte t a = msgByte s a

/-- 44_compressor_round.md R181, R182: the eight simultaneous assignments of ROUND, controller word `1001tttttt`, every sum modulo 2^32, and `t`
counted up to 63. -/
def Obligations.RoundRewritesTheWorkingVariables : Prop :=
  (∀ t : BitVec 6, decode (.uop (packUop 9 t)) = .row (.round t)) ∧
  ∀ (s : State) (t : BitVec 6) (u : Fin 64) (t1 t2 : Nat), u.val = t.toNat →
    t1 = (s.v.h.toNat + (bsig1 s.v.e).toNat + (ch s.v.e s.v.f s.v.g).toNat + (K u).toNat + (s.W.get u).toNat) % 2 ^ 32 →
    t2 = ((bsig0 s.v.a).toNat + (maj s.v.a s.v.b s.v.c).toNat) % 2 ^ 32 →
    ∃ s', exec (.round t) s = .next s' ∧
      s'.v.a.toNat = (t1 + t2) % 2 ^ 32 ∧ s'.v.b = s.v.a ∧ s'.v.c = s.v.b ∧ s'.v.d = s.v.c ∧
      s'.v.e.toNat = (s.v.d.toNat + t1) % 2 ^ 32 ∧ s'.v.f = s.v.e ∧ s'.v.g = s.v.f ∧ s'.v.h = s.v.g ∧
      (t.toNat = 63 → s'.T = s.T ∧ s'.PHASE = .hmix) ∧
      (t.toNat ≠ 63 → s'.T.toNat = t.toNat + 1 ∧ s'.PHASE = .round) ∧
      s' = { s with v := s'.v, T := s'.T, PHASE := s'.PHASE } ∧ ∀ a, msgByte s' a = msgByte s a

/-- 45_compressor_state.md R190: HINIT, controller word `0100------`, loads the initial vector. -/
def Obligations.HinitLoadsTheInitialVector : Prop :=
  (∀ x : BitVec 6, decode (.uop (packUop 4 x)) = .row .hinit) ∧
  ∀ s : State, ∃ t, exec .hinit s = .next t ∧
    t.H.toList = [0x6a09e667#32, 0xbb67ae85#32, 0x3c6ef372#32, 0xa54ff53a#32, 0x510e527f#32, 0x9b05688c#32,
      0x1f83d9ab#32, 0x5be0cd19#32] ∧
    t.PHASE = (if s.BI = s.NB then .dout else .bload) ∧
    t = { s with H := t.H, PHASE := t.PHASE } ∧ ∀ a, msgByte t a = msgByte s a

/-- 45_compressor_state.md R191: HMIX, controller word `1010------`, adds the working variables into the hash state word by word, with no carry from
one word into the next, and counts the block (BI "never wraps", 10_state.md R33); the working variables stay. -/
def Obligations.HmixAccumulatesTheHashState : Prop :=
  (∀ x : BitVec 6, decode (.uop (packUop 10 x)) = .row .hmix) ∧
  ∀ s : State, ∃ t, exec .hmix s = .next t ∧
    (∀ (i : Fin 8) (x : Word), [s.v.a, s.v.b, s.v.c, s.v.d, s.v.e, s.v.f, s.v.g, s.v.h][i.val]? = some x →
      (t.H.get i).toNat = ((s.H.get i).toNat + x.toNat) % 2 ^ 32) ∧
    (s.BI.toNat + 1 < 2 ^ 56 → t.BI.toNat = s.BI.toNat + 1 ∧
      (s.BI.toNat + 1 = s.NB.toNat → t.PHASE = .dout) ∧ (s.BI.toNat + 1 ≠ s.NB.toNat → t.PHASE = .bload)) ∧
    t = { s with H := t.H, BI := t.BI, PHASE := t.PHASE } ∧ ∀ a, msgByte t a = msgByte s a

/-- 45_compressor_state.md R192, 30_encoding.md R94: DOUT, controller word `1011------`: byte `4i + j` of DIGEST is bits `31 - 8j` down to `24 - 8j` of
`H[i]`. -/
def Obligations.DoutSerialisesTheHashState : Prop :=
  (∀ x : BitVec 6, decode (.uop (packUop 11 x)) = .row .dout) ∧
  ∀ s : State, ∃ t, exec .dout s = .next t ∧
    (∀ (i : Fin 8) (j : Fin 4) (n : Fin 32), n.val = 4 * i.val + j.val →
      (t.DIGEST.get n).toNat = (s.H.get i).toNat / 2 ^ (24 - 8 * j.val) % 256) ∧
    t.PHASE = .done ∧ t = { s with DIGEST := t.DIGEST, PHASE := t.PHASE } ∧ ∀ a, msgByte t a = msgByte s a

/-- 45_compressor_state.md R194: from the BLOAD of a block, the 131 steps of the block take `H = S` to `H = CB(S, B)`,
where `B` is the block of PM, and leave MSG, the lengths and the number of blocks. -/
def Obligations.BlockStepsApplyTheCompressionFunction : Prop :=
  ∀ s : State, s.inputs = [] → s.PHASE = .bload →
    64 * s.BI.toNat + 64 ≤ s.MSG_LEN.toNat + 1 + s.KPAD.toNat + 8 → s.MSG_LEN.toNat ≤ s.MSG_CAP.val →
    ∃ t, runTimes step 131 s = .next t ∧ t.H = Contract.CB s.H (paddedBlock s) ∧ t.BLK = paddedBlock s ∧
      t.W.toList = Contract.schedule (paddedBlock s) ∧ t.BI = s.BI + 1 ∧
      t.PHASE = (if s.BI + 1 = s.NB then .dout else .bload) ∧
      t = { s with H := t.H, v := t.v, W := t.W, BLK := t.BLK, BI := t.BI, T := t.T, PHASE := t.PHASE }

/-! ## The macro-operations -/

/-- 30_encoding.md R105, 41_padder.md R140: PAD is LENCHK then PADLEN; on an overlong Message it ends at OverflowError,
else `PM(0)` to `PM(PLEN - 1)` is the Padded Message. -/
def Obligations.PadPreparesThePaddedMessage : Prop :=
  ∀ s : State,
    (2 ^ 61 ≤ s.MSG_LEN.toNat → exec .pad s = .next { s with ERRCODE := .overflow, PHASE := .error }) ∧
    (s.MSG_LEN.toNat < 2 ^ 61 →
      ∃ t, exec .pad s = .next t ∧ Contract.pad (message s) = .ok ((List.range t.PLEN.toNat).map (PM t)) ∧
        t.PLEN.toNat = s.MSG_LEN.toNat + 1 + t.KPAD.toNat + 8 ∧ t.PHASE = .parsechk ∧
        t = { s with LBITS := t.LBITS, KPAD := t.KPAD, PLEN := t.PLEN, PHASE := t.PHASE } ∧
        ∀ a, msgByte t a = msgByte s a)

/-- 30_encoding.md R105, 42_block_parser.md R160, R161: PARSE checks the length and counts the blocks. -/
def Obligations.ParseCountsTheBlocks : Prop :=
  ∀ s : State,
    (s.PLEN.toNat % 64 ≠ 0 → exec .parse s = .next { s with ERRCODE := .invalidBlockLength, PHASE := .error }) ∧
    (s.PLEN.toNat % 64 = 0 →
      ∃ t, exec .parse s = .next t ∧ t.NB.toNat = s.PLEN.toNat / 64 ∧ t.BI = 0 ∧ t.PHASE = .hinit ∧
        t = { s with NB := t.NB, BI := t.BI, PHASE := t.PHASE } ∧ ∀ a, msgByte t a = msgByte s a)

/-- 45_compressor_state.md R193, 30_encoding.md R105: COMPRESS folds the blocks from BI to NB - 1 into `H0` and
serialises the result; with no block left it serialises `H0`. -/
def Obligations.CompressFoldsTheBlocks : Prop :=
  ∀ s : State, s.BI.toNat ≤ s.NB.toNat → 64 * s.NB.toNat ≤ s.MSG_LEN.toNat + 1 + s.KPAD.toNat + 8 →
    s.MSG_LEN.toNat ≤ s.MSG_CAP.val →
    ∃ t, exec .compress s = .next t ∧
      t.DIGEST.toList = Contract.compress ((List.range (s.NB.toNat - s.BI.toNat)).map fun j =>
        Vector.ofFn fun i : Fin 64 => PM s (64 * (s.BI.toNat + j) + i.val)) ∧
      t.PHASE = .done ∧ t.BI = s.NB ∧
      t = { s with H := t.H, v := t.v, W := t.W, BLK := t.BLK, DIGEST := t.DIGEST, BI := t.BI, T := t.T,
                   PHASE := t.PHASE } ∧
      ∀ a, msgByte t a = msgByte s a

/-- 46_top_level.md R200, 30_encoding.md R105: SHA256 leaves the digest of the Message, or ends at OverflowError. -/
def Obligations.Sha256ComputesTheDigest : Prop :=
  ∀ s : State,
    (2 ^ 61 ≤ s.MSG_LEN.toNat → exec .sha256 s = .next { s with ERRCODE := .overflow, PHASE := .error }) ∧
    (s.MSG_LEN.toNat < 2 ^ 61 → s.MSG_LEN.toNat ≤ s.MSG_CAP.val →
      ∃ t, exec .sha256 s = .next t ∧ Contract.sha256 (message s) = .ok t.DIGEST.toList ∧ t.PHASE = .done ∧
        t = { s with H := t.H, v := t.v, W := t.W, BLK := t.BLK, DIGEST := t.DIGEST, LBITS := t.LBITS, KPAD := t.KPAD,
                     PLEN := t.PLEN, NB := t.NB, BI := t.BI, T := t.T, PHASE := t.PHASE } ∧
        ∀ a, msgByte t a = msgByte s a)

/-- 30_encoding.md R105, 46_top_level.md R202: the steps the controller takes from LENCHK to DONE are the expansion of
SHA256: both leave the same state. -/
def Obligations.ControllerRunsTheExpansionOfSha256 : Prop :=
  ∀ s : State, s.inputs = [] → s.PHASE = .lenchk → s.MSG_LEN.toNat < 2 ^ 61 → s.MSG_LEN.toNat ≤ s.MSG_CAP.val →
    runTimes step (5 + 131 * ((s.MSG_LEN.toNat + 8) / 64 + 1)) s = exec .sha256 s

/-! ## START and the phases without an operation -/

/-- 46_top_level.md R201: START, the value 0x01 of CTRL, is accepted in IDLE, DONE and ERROR and begins an invocation, DIGEST becoming unspecified;
in every other phase nothing changes. What DIGEST becomes is a free value, of which nothing is said (log 2). -/
def Obligations.StartBeginsAnInvocationOrIsIgnored : Prop :=
  decode (.command 0x01#8) = .row .start ∧
  ∀ s : State,
    (s.PHASE = .idle ∨ s.PHASE = .done ∨ s.PHASE = .error →
      ∃ t, exec .start s = .next t ∧ t.PHASE = .lenchk ∧ t.ERRCODE = .none ∧ t.T = 0 ∧ status t = 0x01#8 ∧
        t = { s with PHASE := t.PHASE, ERRCODE := t.ERRCODE, T := t.T, DIGEST := t.DIGEST, draws := t.draws } ∧
        ∀ a, msgByte t a = msgByte s a) ∧
    (s.PHASE ≠ .idle → s.PHASE ≠ .done → s.PHASE ≠ .error → exec .start s = .next s)

/-- 46_top_level.md R203: IDLE, DONE and ERROR change nothing, and the machine stays in them while nothing is pending. -/
def Obligations.WaitingPhasesChangeNothing : Prop :=
  ∀ s : State,
    exec .idle s = .next s ∧ exec .done s = .next s ∧ exec .error s = .next s ∧
    (s.inputs = [] → s.PHASE = .idle ∨ s.PHASE = .done ∨ s.PHASE = .error → step s = .next s)

/-! ## The host -/

/-- 10_state.md R36: the fields of STATUS, at most one of BUSY, DONE, ERR set and none exactly in IDLE (in the states that
meet the invariant, which has no reserved phase); 0x00 after reset; a host read has no side effect but the value
returned, and a host write is ignored. -/
def Obligations.StatusShowsPhaseAndErrorCode : Prop :=
  ∀ s : State,
    ((status s).getLsbD 0 = true ↔ 1 ≤ s.PHASE.code.toNat ∧ s.PHASE.code.toNat ≤ 11) ∧
    ((status s).getLsbD 1 = true ↔ s.PHASE = .done) ∧
    ((status s).getLsbD 2 = true ↔ s.PHASE = .error) ∧
    (status s).getLsbD 3 = false ∧
    (status s).toNat / 16 = (match s.ERRCODE with
      | .none => 0 | .overflow => 1 | .padding => 2 | .invalidBlockLength => 3) ∧
    ((status s).toNat % 8 = 0 ∨ (status s).toNat % 8 = 1 ∨ (status s).toNat % 8 = 2 ∨ (status s).toNat % 8 = 4) ∧
    (StateInv s → ((status s).toNat % 8 = 0 ↔ s.PHASE = .idle)) ∧
    status State.reset = 0x00#8 ∧
    (∀ rest, s.inputs = .host .readStatus :: rest →
      step s = .next { s with inputs := rest, reads := .status (status s) :: s.reads }) ∧
    (∀ v rest, s.inputs = .host (.writeStatus v) :: rest → step s = .next { s with inputs := rest })

/-- 46_top_level.md R205, 10_state.md R37: what a host read of CTRL and of DIGEST returns, and that it changes nothing but
the values returned. What DIGEST reads as outside DONE is a free value, of which nothing is said (log 3). -/
def Obligations.HostReadsOfCtrlAndDigest : Prop :=
  ∀ (s : State) (rest : List Input),
    (s.inputs = .host .readCtrl :: rest →
      step s = .next { s with inputs := rest, reads := .ctrl 0x00#8 :: s.reads }) ∧
    (∀ i : Fin 32, s.inputs = .host (.readDigest i) :: rest →
      (∃ b, step s = .next { s with inputs := rest, reads := .digest i b :: s.reads }) ∧
      (s.PHASE = .done → step s = .next { s with inputs := rest, reads := .digest i (s.DIGEST.get i) :: s.reads }))

/-- 46_top_level.md R206: MSG_LEN is written only while not BUSY and read at any time; and DIGEST is read-only to the
host. -/
def Obligations.HostAccessesOfMsgLen : Prop :=
  ∀ (s : State) (rest : List Input),
    (∀ v, s.inputs = .host (.writeMsgLen v) :: rest →
      ((status s).getLsbD 0 = false → step s = .next { s with inputs := rest, MSG_LEN := v }) ∧
      ((status s).getLsbD 0 = true → step s = .next { s with inputs := rest })) ∧
    (s.inputs = .host .readMsgLen :: rest →
      step s = .next { s with inputs := rest, reads := .msgLen s.MSG_LEN :: s.reads }) ∧
    (∀ i v, s.inputs = .host (.writeDigest i v) :: rest → step s = .next { s with inputs := rest })

/-- 46_top_level.md R207, R212: where the host's write of `MSG:i` is enabled it changes that byte and no other; the
forbidden write is refused and one beyond MSG_CAP stops (log 14). -/
def Obligations.HostMessageWrites : Prop :=
  ∀ (s : State) (i : Nat) (b : Byte) (rest : List Input), s.inputs = .host (.writeMsg i b) :: rest →
    (i < s.MSG_CAP.val → ((status s).getLsbD 0 = false ∨ s.MSG_LEN.toNat ≤ i) →
      ∃ t, step s = .next t ∧ msgByte t i = b ∧ (∀ a, a ≠ i → msgByte t a = msgByte s a) ∧
        t = { s with inputs := rest, MSG := t.MSG }) ∧
    (i < s.MSG_CAP.val → (status s).getLsbD 0 = true → i < s.MSG_LEN.toNat →
      step s = .refused .messageWriteWhileBusy) ∧
    (s.MSG_CAP.val ≤ i → step s = .fault .msgBeyondCap)

/-- 46_top_level.md R212: no host move but reset disturbs a run: while BUSY every register of the engine stays, and so does
every byte of the Message. -/
def Obligations.HostMovesWhileBusyDisturbNothing : Prop :=
  ∀ (s t : State) (m : HostMove) (rest : List Input), (status s).getLsbD 0 = true →
    s.inputs = .host m :: rest → m ≠ .reset → step s = .next t →
    t = { s with inputs := rest, MSG := t.MSG, reads := t.reads } ∧
    ∀ i, i < s.MSG_LEN.toNat → msgByte t i = msgByte s i

/-- 70_reset_and_hazards.md R260, 10_state.md R40: what the reset event fixes, at any time: PHASE, ERRCODE, T and so
STATUS; MSG is untouched. The unspecified registers become free values, of which nothing is said (log 1). -/
def Obligations.ResetEventReturnsToIdle : Prop :=
  ∀ (s : State) (rest : List Input), s.inputs = .host .reset :: rest →
    ∃ t, step s = .next t ∧ t.PHASE = .idle ∧ t.ERRCODE = .none ∧ t.T = 0 ∧ status t = 0x00#8 ∧ t.MSG = s.MSG ∧
      (∀ a, msgByte t a = msgByte s a) ∧ t.MSG_CAP = s.MSG_CAP ∧ t.inputs = rest ∧ t.reads = s.reads

/-- 10_state.md R40: the values the spec gives for reset. -/
def Obligations.ResetStateIsIdle : Prop :=
  State.reset.PHASE = .idle ∧ State.reset.ERRCODE = .none ∧ State.reset.T = 0 ∧ status State.reset = 0x00#8 ∧
    step State.reset = .next State.reset

/-! ## The whole machine -/

/-- 60_exceptions.md R237: an operation of the controller that reaches ERROR wrote ERRCODE and PHASE "and nothing else",
and is one of the three checks with its own code; the host sees ERR and the code in STATUS, and no later operation
starts. -/
def Obligations.RaisingWritesOnlyTheErrorRegisters : Prop :=
  ∀ (i : Instr) (s t : State), i ≠ .pad → i ≠ .parse → i ≠ .compress → i ≠ .sha256 →
    s.PHASE ≠ .error → exec i s = .next t → t.PHASE = .error →
    t = { s with ERRCODE := t.ERRCODE, PHASE := .error } ∧
    ((i = .lenchk ∧ t.ERRCODE = .overflow) ∨ (i = .padlen ∧ t.ERRCODE = .padding) ∨
      (i = .parsechk ∧ t.ERRCODE = .invalidBlockLength)) ∧
    (status t).getLsbD 2 = true ∧ (status t).toNat / 16 = t.ERRCODE.code.toNat ∧
    (s.inputs = [] → step t = .next t)

/-- 10_state.md R21, column "Written by": which operation may change which register, for every register the table lists;
MSG_LEN is the host's, so no operation changes it. -/
def Obligations.OnlyTheListedOperationsWriteARegister : Prop :=
  ∀ (i : Instr) (s t : State), i ≠ .pad → i ≠ .parse → i ≠ .compress → i ≠ .sha256 → exec i s = .next t →
    (t.H ≠ s.H → i = .hinit ∨ i = .hmix) ∧
    (t.v ≠ s.v → i = .vinit ∨ ∃ k, i = .round k) ∧
    (t.W ≠ s.W → (∃ k, i = .wload k) ∨ ∃ k, i = .wexp k) ∧
    (t.BLK ≠ s.BLK → i = .bload) ∧
    (t.DIGEST ≠ s.DIGEST → i = .dout ∨ i = .start) ∧
    (t.LBITS ≠ s.LBITS → i = .lenchk) ∧
    (t.KPAD ≠ s.KPAD ∨ t.PLEN ≠ s.PLEN → i = .padlen) ∧
    (t.NB ≠ s.NB → i = .parsechk) ∧
    (t.BI ≠ s.BI → i = .parsechk ∨ i = .hmix) ∧
    (t.T ≠ s.T → i = .start ∨ i = .bload ∨ (∃ k, i = .wload k) ∨ (∃ k, i = .wexp k) ∨ i = .vinit ∨ ∃ k, i = .round k) ∧
    (t.ERRCODE ≠ s.ERRCODE → i = .start ∨ i = .lenchk ∨ i = .padlen ∨ i = .parsechk) ∧
    (t.PHASE ≠ s.PHASE →
      i = .start ∨ i = .lenchk ∨ i = .padlen ∨ i = .parsechk ∨ i = .hinit ∨ i = .bload ∨ (∃ k, i = .wload k) ∨
      (∃ k, i = .wexp k) ∨ i = .vinit ∨ (∃ k, i = .round k) ∨ i = .hmix ∨ i = .dout) ∧
    t.MSG_LEN = s.MSG_LEN

/-- 20_memory.md R61, R60, 10_state.md R28: no operation, macro-operations included, writes MSG or MSG_LEN; the model's
own host fields stay as well. -/
def Obligations.EngineNeverWritesTheMessage : Prop :=
  ∀ (i : Instr) (s t : State), exec i s = .next t →
    t.MSG = s.MSG ∧ (∀ a, msgByte t a = msgByte s a) ∧ t.MSG_LEN = s.MSG_LEN ∧ t.MSG_CAP = s.MSG_CAP ∧
      t.inputs = s.inputs ∧ t.reads = s.reads

/-- 46_top_level.md R202: the phase an engine step leads to and what becomes of `T`, for every row of the transition
table, "There are no other transfers". Where BI is at its last value, HMIX's choice between its two phases is left open
(BI "never wraps", 10_state.md R33). -/
def Obligations.PhaseTransitions : Prop :=
  ∀ s t : State, s.inputs = [] → step s = .next t →
    match s.PHASE with
    | .idle => t.PHASE = .idle ∧ t.T = s.T
    | .lenchk => t.PHASE = (if 2 ^ 61 ≤ s.MSG_LEN.toNat then .error else .padlen) ∧ t.T = s.T
    | .padlen =>
        (∀ k : Nat, (k : Int) = ((448 - (s.LBITS.toNat : Int) - 8) % 512) / 8 →
          t.PHASE = if (s.MSG_LEN.toNat + 1 + k + 8) % 64 ≠ 0 then .error else .parsechk) ∧
        t.T = s.T
    | .parsechk => t.PHASE = (if s.PLEN.toNat % 64 ≠ 0 then .error else .hinit) ∧ t.T = s.T
    | .hinit => t.PHASE = (if s.BI = s.NB then .dout else .bload) ∧ t.T = s.T
    | .bload => t.PHASE = .wload ∧ t.T = 0
    | .wload => s.T.toNat < 16 ∧ t.T.toNat = s.T.toNat + 1 ∧ t.PHASE = if s.T.toNat = 15 then .wexp else .wload
    | .wexp => 16 ≤ s.T.toNat ∧
        (if s.T.toNat = 63 then t.T = s.T ∧ t.PHASE = .vinit else t.T.toNat = s.T.toNat + 1 ∧ t.PHASE = .wexp)
    | .vinit => t.PHASE = .round ∧ t.T = 0
    | .round => if s.T.toNat = 63 then t.T = s.T ∧ t.PHASE = .hmix else t.T.toNat = s.T.toNat + 1 ∧ t.PHASE = .round
    | .hmix =>
        (t.PHASE = .dout ∨ t.PHASE = .bload) ∧
        (s.BI.toNat + 1 < 2 ^ 56 → t.PHASE = if s.BI.toNat + 1 = s.NB.toNat then .dout else .bload) ∧ t.T = s.T
    | .dout => t.PHASE = .done ∧ t.T = s.T
    | .done => t.PHASE = .done ∧ t.T = s.T
    | .error => t.PHASE = .error ∧ t.T = s.T
    | .reservedE | .reservedF => False

/-- The invariant of the machine holds at reset. -/
def Obligations.InvariantHoldsAtReset : Prop := StateInv State.reset

/-- Every step, of the engine or of the host, keeps the invariant: MSG in canonical form, ERRCODE nonzero only in ERROR and
then OverflowError's (10_state.md R38, 60_exceptions.md R234), T and BI within the ranges of 10_state.md R33, R34, the
lengths of 41_padder.md R147, and no reserved phase (30_encoding.md R102). -/
def Obligations.EveryStepKeepsTheInvariant : Prop :=
  ∀ s t : State, StateInv s → step s = .next t → StateInv t

/-- 30_encoding.md R102, 60_exceptions.md R234, R235: in a state that meets the invariant, with the Message within the
platform's memory, the engine's step is never a stop and never one of the two defensive errors. -/
def Obligations.EngineNeverGetsStuck : Prop :=
  ∀ s : State, StateInv s → messageInRange s → s.inputs = [] →
    ∃ t, step s = .next t ∧ t.ERRCODE ≠ .padding ∧ t.ERRCODE ≠ .invalidBlockLength

/-- 46_top_level.md R208, R211: an accepted START of a Message of `L < 2^61` bytes within the platform's memory is BUSY
for exactly `5 + 131 * NB` steps and then is DONE with `DIGEST = sha256(m)`; with `L >= 2^61` it ends in ERROR after one
step, with the contract's OverflowError. -/
def Obligations.InvocationComputesSha256 : Prop :=
  ∀ s : State, s.inputs = [.host (.writeCtrl 0x01#8)] → s.PHASE = .idle ∨ s.PHASE = .done ∨ s.PHASE = .error →
    (s.MSG_LEN.toNat < 2 ^ 61 → s.MSG_LEN.toNat ≤ s.MSG_CAP.val →
      (∀ n, n < 5 + 131 * ((s.MSG_LEN.toNat + 8) / 64 + 1) →
        ∃ u, runTimes step (1 + n) s = .next u ∧ status u = 0x01#8) ∧
      ∃ t, runTimes step (1 + (5 + 131 * ((s.MSG_LEN.toNat + 8) / 64 + 1))) s = .next t ∧
        t.PHASE = .done ∧ status t = 0x02#8 ∧ Contract.sha256 (message s) = .ok t.DIGEST.toList ∧ t.MSG = s.MSG ∧
        ∀ a, msgByte t a = msgByte s a) ∧
    (2 ^ 61 ≤ s.MSG_LEN.toNat →
      (∃ u, runTimes step 1 s = .next u ∧ status u = 0x01#8) ∧
      ∃ t, runTimes step (1 + 1) s = .next t ∧ t.PHASE = .error ∧ t.ERRCODE = .overflow ∧
        Contract.sha256 (message s) = .error .overflow ∧ t.MSG = s.MSG)

/-- 60_exceptions.md R237, 41_padder.md R148: an accepted START with `L >= 2^61` leaves every register but those START and
the error write, and STATUS shows 0x14. -/
def Obligations.OverlongInvocationEndsInOverflow : Prop :=
  ∀ s : State, s.inputs = [.host (.writeCtrl 0x01#8)] → s.PHASE = .idle ∨ s.PHASE = .done ∨ s.PHASE = .error →
    2 ^ 61 ≤ s.MSG_LEN.toNat →
    ∃ t, runTimes step 2 s = .next t ∧ t.PHASE = .error ∧ t.ERRCODE = .overflow ∧ status t = 0x14#8 ∧
      t = { s with PHASE := t.PHASE, ERRCODE := t.ERRCODE, T := 0, DIGEST := t.DIGEST, draws := t.draws, inputs := [] }

/-- 46_top_level.md R209, R203, 10_state.md R41: two invocations with equal `L` and equal `MSG[0..L-1]` end alike, whatever
the rest of the two states holds. Step 1 is the accepted START; the end is the first state after it whose phase is DONE
or ERROR, so both runs are BUSY in every state before step `n`. -/
def Obligations.InvocationsAreDeterministic : Prop :=
  ∀ s s' : State,
    s.inputs = [.host (.writeCtrl 0x01#8)] → s'.inputs = [.host (.writeCtrl 0x01#8)] →
    s.PHASE = .idle ∨ s.PHASE = .done ∨ s.PHASE = .error → s'.PHASE = .idle ∨ s'.PHASE = .done ∨ s'.PHASE = .error →
    s.MSG_LEN = s'.MSG_LEN → (∀ i, i < s.MSG_LEN.toNat → msgByte s i = msgByte s' i) →
    messageInRange s → messageInRange s' →
    ∃ n t t', 2 ≤ n ∧
      (∀ j, 1 ≤ j → j < n → ∃ u u', runTimes step j s = .next u ∧ runTimes step j s' = .next u' ∧
        status u = 0x01#8 ∧ status u' = 0x01#8) ∧
      runTimes step n s = .next t ∧ runTimes step n s' = .next t' ∧
      (t.PHASE = .done ∨ t.PHASE = .error) ∧ t.PHASE = t'.PHASE ∧ t.ERRCODE = t'.ERRCODE ∧
      (t.PHASE = .done → t.DIGEST = t'.DIGEST)
end

