-- ==== Sys2Proof/Laws/State.lean ====
section
/-! SUPPORT. What each shared update of the state does to each field, so that no later proof unfolds one. -/

namespace Sys2Proof.Machine

/-! ### raise (60_exceptions.md R237) -/

@[simp] theorem raise_H (e : ErrorCode) (s : State) : (raise e s).H = s.H := rfl
@[simp] theorem raise_v (e : ErrorCode) (s : State) : (raise e s).v = s.v := rfl
@[simp] theorem raise_W (e : ErrorCode) (s : State) : (raise e s).W = s.W := rfl
@[simp] theorem raise_BLK (e : ErrorCode) (s : State) : (raise e s).BLK = s.BLK := rfl
@[simp] theorem raise_DIGEST (e : ErrorCode) (s : State) : (raise e s).DIGEST = s.DIGEST := rfl
@[simp] theorem raise_MSG_LEN (e : ErrorCode) (s : State) : (raise e s).MSG_LEN = s.MSG_LEN := rfl
@[simp] theorem raise_LBITS (e : ErrorCode) (s : State) : (raise e s).LBITS = s.LBITS := rfl
@[simp] theorem raise_KPAD (e : ErrorCode) (s : State) : (raise e s).KPAD = s.KPAD := rfl
@[simp] theorem raise_PLEN (e : ErrorCode) (s : State) : (raise e s).PLEN = s.PLEN := rfl
@[simp] theorem raise_NB (e : ErrorCode) (s : State) : (raise e s).NB = s.NB := rfl
@[simp] theorem raise_BI (e : ErrorCode) (s : State) : (raise e s).BI = s.BI := rfl
@[simp] theorem raise_T (e : ErrorCode) (s : State) : (raise e s).T = s.T := rfl
@[simp] theorem raise_PHASE (e : ErrorCode) (s : State) : (raise e s).PHASE = .error := rfl
@[simp] theorem raise_ERRCODE (e : ErrorCode) (s : State) : (raise e s).ERRCODE = e := rfl
@[simp] theorem raise_MSG (e : ErrorCode) (s : State) : (raise e s).MSG = s.MSG := rfl
@[simp] theorem raise_MSG_CAP (e : ErrorCode) (s : State) : (raise e s).MSG_CAP = s.MSG_CAP := rfl
@[simp] theorem raise_inputs (e : ErrorCode) (s : State) : (raise e s).inputs = s.inputs := rfl
@[simp] theorem raise_reads (e : ErrorCode) (s : State) : (raise e s).reads = s.reads := rfl
@[simp] theorem raise_draws (e : ErrorCode) (s : State) : (raise e s).draws = s.draws := rfl

/-! ### setW (the write of one schedule word) -/

@[simp] theorem setW_H (s : State) (t : Fin 64) (x : Word) : (setW s t x).H = s.H := rfl
@[simp] theorem setW_v (s : State) (t : Fin 64) (x : Word) : (setW s t x).v = s.v := rfl
@[simp] theorem setW_W (s : State) (t : Fin 64) (x : Word) : (setW s t x).W = s.W.set t x := rfl
@[simp] theorem setW_BLK (s : State) (t : Fin 64) (x : Word) : (setW s t x).BLK = s.BLK := rfl
@[simp] theorem setW_DIGEST (s : State) (t : Fin 64) (x : Word) : (setW s t x).DIGEST = s.DIGEST := rfl
@[simp] theorem setW_MSG_LEN (s : State) (t : Fin 64) (x : Word) : (setW s t x).MSG_LEN = s.MSG_LEN := rfl
@[simp] theorem setW_LBITS (s : State) (t : Fin 64) (x : Word) : (setW s t x).LBITS = s.LBITS := rfl
@[simp] theorem setW_KPAD (s : State) (t : Fin 64) (x : Word) : (setW s t x).KPAD = s.KPAD := rfl
@[simp] theorem setW_PLEN (s : State) (t : Fin 64) (x : Word) : (setW s t x).PLEN = s.PLEN := rfl
@[simp] theorem setW_NB (s : State) (t : Fin 64) (x : Word) : (setW s t x).NB = s.NB := rfl
@[simp] theorem setW_BI (s : State) (t : Fin 64) (x : Word) : (setW s t x).BI = s.BI := rfl
@[simp] theorem setW_T (s : State) (t : Fin 64) (x : Word) : (setW s t x).T = s.T := rfl
@[simp] theorem setW_PHASE (s : State) (t : Fin 64) (x : Word) : (setW s t x).PHASE = s.PHASE := rfl
@[simp] theorem setW_ERRCODE (s : State) (t : Fin 64) (x : Word) : (setW s t x).ERRCODE = s.ERRCODE := rfl
@[simp] theorem setW_MSG (s : State) (t : Fin 64) (x : Word) : (setW s t x).MSG = s.MSG := rfl
@[simp] theorem setW_MSG_CAP (s : State) (t : Fin 64) (x : Word) : (setW s t x).MSG_CAP = s.MSG_CAP := rfl
@[simp] theorem setW_inputs (s : State) (t : Fin 64) (x : Word) : (setW s t x).inputs = s.inputs := rfl
@[simp] theorem setW_reads (s : State) (t : Fin 64) (x : Word) : (setW s t x).reads = s.reads := rfl
@[simp] theorem setW_draws (s : State) (t : Fin 64) (x : Word) : (setW s t x).draws = s.draws := rfl

/-! ### writeMsg (46_top_level.md R207) -/

@[simp] theorem writeMsg_H (s : State) (i : Nat) (b : Byte) : (writeMsg s i b).H = s.H := rfl
@[simp] theorem writeMsg_v (s : State) (i : Nat) (b : Byte) : (writeMsg s i b).v = s.v := rfl
@[simp] theorem writeMsg_W (s : State) (i : Nat) (b : Byte) : (writeMsg s i b).W = s.W := rfl
@[simp] theorem writeMsg_BLK (s : State) (i : Nat) (b : Byte) : (writeMsg s i b).BLK = s.BLK := rfl
@[simp] theorem writeMsg_DIGEST (s : State) (i : Nat) (b : Byte) : (writeMsg s i b).DIGEST = s.DIGEST := rfl
@[simp] theorem writeMsg_MSG_LEN (s : State) (i : Nat) (b : Byte) : (writeMsg s i b).MSG_LEN = s.MSG_LEN := rfl
@[simp] theorem writeMsg_LBITS (s : State) (i : Nat) (b : Byte) : (writeMsg s i b).LBITS = s.LBITS := rfl
@[simp] theorem writeMsg_KPAD (s : State) (i : Nat) (b : Byte) : (writeMsg s i b).KPAD = s.KPAD := rfl
@[simp] theorem writeMsg_PLEN (s : State) (i : Nat) (b : Byte) : (writeMsg s i b).PLEN = s.PLEN := rfl
@[simp] theorem writeMsg_NB (s : State) (i : Nat) (b : Byte) : (writeMsg s i b).NB = s.NB := rfl
@[simp] theorem writeMsg_BI (s : State) (i : Nat) (b : Byte) : (writeMsg s i b).BI = s.BI := rfl
@[simp] theorem writeMsg_T (s : State) (i : Nat) (b : Byte) : (writeMsg s i b).T = s.T := rfl
@[simp] theorem writeMsg_PHASE (s : State) (i : Nat) (b : Byte) : (writeMsg s i b).PHASE = s.PHASE := rfl
@[simp] theorem writeMsg_ERRCODE (s : State) (i : Nat) (b : Byte) : (writeMsg s i b).ERRCODE = s.ERRCODE := rfl
@[simp] theorem writeMsg_MSG (s : State) (i : Nat) (b : Byte) : (writeMsg s i b).MSG = Memory.write s.MSG i b := rfl
@[simp] theorem writeMsg_MSG_CAP (s : State) (i : Nat) (b : Byte) : (writeMsg s i b).MSG_CAP = s.MSG_CAP := rfl
@[simp] theorem writeMsg_inputs (s : State) (i : Nat) (b : Byte) : (writeMsg s i b).inputs = s.inputs := rfl
@[simp] theorem writeMsg_reads (s : State) (i : Nat) (b : Byte) : (writeMsg s i b).reads = s.reads := rfl
@[simp] theorem writeMsg_draws (s : State) (i : Nat) (b : Byte) : (writeMsg s i b).draws = s.draws := rfl

/-! ### invalidateDigest (46_top_level.md R201) -/

@[simp] theorem invalidateDigest_H (s : State) : (invalidateDigest s).H = s.H := rfl
@[simp] theorem invalidateDigest_v (s : State) : (invalidateDigest s).v = s.v := rfl
@[simp] theorem invalidateDigest_W (s : State) : (invalidateDigest s).W = s.W := rfl
@[simp] theorem invalidateDigest_BLK (s : State) : (invalidateDigest s).BLK = s.BLK := rfl
@[simp] theorem invalidateDigest_DIGEST (s : State) : (invalidateDigest s).DIGEST = Config.unspecDigest s.draws := rfl
@[simp] theorem invalidateDigest_MSG_LEN (s : State) : (invalidateDigest s).MSG_LEN = s.MSG_LEN := rfl
@[simp] theorem invalidateDigest_LBITS (s : State) : (invalidateDigest s).LBITS = s.LBITS := rfl
@[simp] theorem invalidateDigest_KPAD (s : State) : (invalidateDigest s).KPAD = s.KPAD := rfl
@[simp] theorem invalidateDigest_PLEN (s : State) : (invalidateDigest s).PLEN = s.PLEN := rfl
@[simp] theorem invalidateDigest_NB (s : State) : (invalidateDigest s).NB = s.NB := rfl
@[simp] theorem invalidateDigest_BI (s : State) : (invalidateDigest s).BI = s.BI := rfl
@[simp] theorem invalidateDigest_T (s : State) : (invalidateDigest s).T = s.T := rfl
@[simp] theorem invalidateDigest_PHASE (s : State) : (invalidateDigest s).PHASE = s.PHASE := rfl
@[simp] theorem invalidateDigest_ERRCODE (s : State) : (invalidateDigest s).ERRCODE = s.ERRCODE := rfl
@[simp] theorem invalidateDigest_MSG (s : State) : (invalidateDigest s).MSG = s.MSG := rfl
@[simp] theorem invalidateDigest_MSG_CAP (s : State) : (invalidateDigest s).MSG_CAP = s.MSG_CAP := rfl
@[simp] theorem invalidateDigest_inputs (s : State) : (invalidateDigest s).inputs = s.inputs := rfl
@[simp] theorem invalidateDigest_reads (s : State) : (invalidateDigest s).reads = s.reads := rfl
@[simp] theorem invalidateDigest_draws (s : State) : (invalidateDigest s).draws = s.draws + 1 := rfl

/-! ### returnToHost (46_top_level.md R212) -/

@[simp] theorem returnToHost_H (r : ReadValue) (s : State) : (returnToHost r s).H = s.H := rfl
@[simp] theorem returnToHost_v (r : ReadValue) (s : State) : (returnToHost r s).v = s.v := rfl
@[simp] theorem returnToHost_W (r : ReadValue) (s : State) : (returnToHost r s).W = s.W := rfl
@[simp] theorem returnToHost_BLK (r : ReadValue) (s : State) : (returnToHost r s).BLK = s.BLK := rfl
@[simp] theorem returnToHost_DIGEST (r : ReadValue) (s : State) : (returnToHost r s).DIGEST = s.DIGEST := rfl
@[simp] theorem returnToHost_MSG_LEN (r : ReadValue) (s : State) : (returnToHost r s).MSG_LEN = s.MSG_LEN := rfl
@[simp] theorem returnToHost_LBITS (r : ReadValue) (s : State) : (returnToHost r s).LBITS = s.LBITS := rfl
@[simp] theorem returnToHost_KPAD (r : ReadValue) (s : State) : (returnToHost r s).KPAD = s.KPAD := rfl
@[simp] theorem returnToHost_PLEN (r : ReadValue) (s : State) : (returnToHost r s).PLEN = s.PLEN := rfl
@[simp] theorem returnToHost_NB (r : ReadValue) (s : State) : (returnToHost r s).NB = s.NB := rfl
@[simp] theorem returnToHost_BI (r : ReadValue) (s : State) : (returnToHost r s).BI = s.BI := rfl
@[simp] theorem returnToHost_T (r : ReadValue) (s : State) : (returnToHost r s).T = s.T := rfl
@[simp] theorem returnToHost_PHASE (r : ReadValue) (s : State) : (returnToHost r s).PHASE = s.PHASE := rfl
@[simp] theorem returnToHost_ERRCODE (r : ReadValue) (s : State) : (returnToHost r s).ERRCODE = s.ERRCODE := rfl
@[simp] theorem returnToHost_MSG (r : ReadValue) (s : State) : (returnToHost r s).MSG = s.MSG := rfl
@[simp] theorem returnToHost_MSG_CAP (r : ReadValue) (s : State) : (returnToHost r s).MSG_CAP = s.MSG_CAP := rfl
@[simp] theorem returnToHost_inputs (r : ReadValue) (s : State) : (returnToHost r s).inputs = s.inputs := rfl
@[simp] theorem returnToHost_reads (r : ReadValue) (s : State) : (returnToHost r s).reads = r :: s.reads := rfl
@[simp] theorem returnToHost_draws (r : ReadValue) (s : State) : (returnToHost r s).draws = s.draws := rfl

/-! ### takeInput (taking the next input) -/

@[simp] theorem takeInput_H (s : State) (rest : List Input) : (takeInput s rest).H = s.H := rfl
@[simp] theorem takeInput_v (s : State) (rest : List Input) : (takeInput s rest).v = s.v := rfl
@[simp] theorem takeInput_W (s : State) (rest : List Input) : (takeInput s rest).W = s.W := rfl
@[simp] theorem takeInput_BLK (s : State) (rest : List Input) : (takeInput s rest).BLK = s.BLK := rfl
@[simp] theorem takeInput_DIGEST (s : State) (rest : List Input) : (takeInput s rest).DIGEST = s.DIGEST := rfl
@[simp] theorem takeInput_MSG_LEN (s : State) (rest : List Input) : (takeInput s rest).MSG_LEN = s.MSG_LEN := rfl
@[simp] theorem takeInput_LBITS (s : State) (rest : List Input) : (takeInput s rest).LBITS = s.LBITS := rfl
@[simp] theorem takeInput_KPAD (s : State) (rest : List Input) : (takeInput s rest).KPAD = s.KPAD := rfl
@[simp] theorem takeInput_PLEN (s : State) (rest : List Input) : (takeInput s rest).PLEN = s.PLEN := rfl
@[simp] theorem takeInput_NB (s : State) (rest : List Input) : (takeInput s rest).NB = s.NB := rfl
@[simp] theorem takeInput_BI (s : State) (rest : List Input) : (takeInput s rest).BI = s.BI := rfl
@[simp] theorem takeInput_T (s : State) (rest : List Input) : (takeInput s rest).T = s.T := rfl
@[simp] theorem takeInput_PHASE (s : State) (rest : List Input) : (takeInput s rest).PHASE = s.PHASE := rfl
@[simp] theorem takeInput_ERRCODE (s : State) (rest : List Input) : (takeInput s rest).ERRCODE = s.ERRCODE := rfl
@[simp] theorem takeInput_MSG (s : State) (rest : List Input) : (takeInput s rest).MSG = s.MSG := rfl
@[simp] theorem takeInput_MSG_CAP (s : State) (rest : List Input) : (takeInput s rest).MSG_CAP = s.MSG_CAP := rfl
@[simp] theorem takeInput_inputs (s : State) (rest : List Input) : (takeInput s rest).inputs = rest := rfl
@[simp] theorem takeInput_reads (s : State) (rest : List Input) : (takeInput s rest).reads = s.reads := rfl
@[simp] theorem takeInput_draws (s : State) (rest : List Input) : (takeInput s rest).draws = s.draws := rfl

/-! ### resetEngine (70_reset_and_hazards.md R260): the fields the spec fixes and the host's -/

@[simp] theorem resetEngine_T (s : State) : (resetEngine s).T = 0 := rfl
@[simp] theorem resetEngine_PHASE (s : State) : (resetEngine s).PHASE = .idle := rfl
@[simp] theorem resetEngine_ERRCODE (s : State) : (resetEngine s).ERRCODE = .none := rfl
@[simp] theorem resetEngine_MSG (s : State) : (resetEngine s).MSG = s.MSG := rfl
@[simp] theorem resetEngine_MSG_CAP (s : State) : (resetEngine s).MSG_CAP = s.MSG_CAP := rfl
@[simp] theorem resetEngine_inputs (s : State) : (resetEngine s).inputs = s.inputs := rfl
@[simp] theorem resetEngine_reads (s : State) : (resetEngine s).reads = s.reads := rfl
@[simp] theorem resetEngine_draws (s : State) : (resetEngine s).draws = s.draws + 1 := rfl

/-- The state after reset is the reset event's. -/
theorem reset_eq_resetEngine : resetEngine { State.reset with draws := 0 } = State.reset := rfl

end Sys2Proof.Machine
end

