-- ==== Sys2Proof/Laws/Chain.lean ====
section
/-! SUPPORT. Running one operation after another: what `chain` and `chainUnlessError` answer. -/

namespace Sys2Proof.Machine

@[simp] theorem chain_next (s : State) (f : State → Result) : chain (.next s) f = f s := rfl

@[simp] theorem chain_fault (r : Fault) (f : State → Result) : chain (.fault r) f = .fault r := rfl

@[simp] theorem chain_refused (r : Refusal) (f : State → Result) : chain (.refused r) f = .refused r := rfl

@[simp] theorem chain_next_right (o : Result) : chain o .next = o := by cases o <;> rfl

/-- A sequence answers next exactly when both of its parts do. -/
theorem chain_eq_next {o : Result} {f : State → Result} {t : State} :
    chain o f = .next t ↔ ∃ s, o = .next s ∧ f s = .next t := by
  cases o <;> simp

theorem chain_assoc (o : Result) (f g : State → Result) : chain (chain o f) g = chain o fun s => chain (f s) g := by
  cases o <;> rfl

theorem chainUnlessError_next (s : State) (f : State → Result) :
    chainUnlessError (.next s) f = if s.PHASE = .error then .next s else f s := rfl

/-- A sequence ended by an error answers the state the error left; otherwise both parts answered next. -/
theorem chainUnlessError_eq_next {o : Result} {f : State → Result} {t : State} :
    chainUnlessError o f = .next t ↔
      ∃ s, o = .next s ∧ ((s.PHASE = .error ∧ s = t) ∨ (s.PHASE ≠ .error ∧ f s = .next t)) := by
  cases o with
  | next s => by_cases h : s.PHASE = .error <;> simp [chainUnlessError, h]
  | fault r => simp [chainUnlessError]
  | refused r => simp [chainUnlessError]

/-- Running `n + 1` indices is running `n` and then the last one. -/
theorem runIndices_succ (f : Nat → State → Result) (t n : Nat) (s : State) :
    runIndices f t (n + 1) s = chain (runIndices f t n s) (f (t + n)) := by
  induction n generalizing t s with
  | zero => simp [runIndices]
  | succ n ih =>
    rw [runIndices, runIndices, chain_assoc]
    congr 1
    funext u
    rw [ih, show t + 1 + n = t + (n + 1) by omega]

/-- Running `n + 1` times is running `n` times and then once more. -/
theorem runTimes_succ (f : State → Result) (n : Nat) (s : State) :
    runTimes f (n + 1) s = chain (runTimes f n s) f := by
  induction n generalizing s with
  | zero => simp [runTimes]
  | succ n ih =>
    rw [runTimes, runTimes, chain_assoc]
    congr 1
    funext u
    rw [← ih, runTimes]

end Sys2Proof.Machine
end

