-- ==== Sys2Proof/Laws/Memory.lean ====
section
/-! SUPPORT. The laws of the memory MSG: a read after a write, other addresses, the canonical form. -/

namespace Sys2Proof.Machine

@[simp] theorem Memory.read?_nil (a : Nat) : Memory.read? [] a = none := rfl

@[simp] theorem Memory.read?_write_self (m : Memory) (a : Nat) (b : Byte) :
    Memory.read? (Memory.write m a b) a = some b := by
  induction m with
  | nil => simp [Memory.write, Memory.read?]
  | cons c rest ih =>
    obtain ⟨a', b'⟩ := c
    simp only [Memory.write]
    split
    · simp [Memory.read?]
    · split
      · simp [Memory.read?]
      · simp [Memory.read?, *]

theorem Memory.read?_write_ne (m : Memory) {a a' : Nat} (b : Byte) (h : a' ≠ a) :
    Memory.read? (Memory.write m a b) a' = Memory.read? m a' := by
  induction m with
  | nil => simp [Memory.write, Memory.read?, h]
  | cons c rest ih =>
    obtain ⟨x, y⟩ := c
    simp only [Memory.write]
    split
    · simp [Memory.read?, h]
    · split
      · subst a; simp [Memory.read?, h]
      · simp [Memory.read?, ih]

/-- A write lists its own address and the addresses listed before, no other. -/
theorem Memory.mem_addrs_write {m : Memory} {a : Nat} {b : Byte} {x : Nat}
    (h : x ∈ (Memory.write m a b).map Prod.fst) : x = a ∨ x ∈ m.map Prod.fst := by
  induction m with
  | nil => simpa [Memory.write] using h
  | cons c rest ih =>
    obtain ⟨a', b'⟩ := c
    simp only [Memory.write] at h
    split at h
    · simpa using h
    · split at h
      · subst a; simp at h ⊢; tauto
      · simp only [List.map_cons, List.mem_cons] at h ⊢
        rcases h with h | h
        · exact .inr (.inl h)
        · rcases ih h with h | h
          · exact .inl h
          · exact .inr (.inr h)

/-- A write keeps the addresses strictly rising. -/
theorem Memory.wf_write {m : Memory} (h : Memory.wf m) (a : Nat) (b : Byte) : Memory.wf (Memory.write m a b) := by
  induction m with
  | nil => simp [Memory.write, Memory.wf]
  | cons c rest ih =>
    obtain ⟨a', b'⟩ := c
    simp only [Memory.wf, List.map_cons, List.pairwise_cons] at h
    simp only [Memory.write]
    split
    case isTrue hlt =>
      simp only [Memory.wf, List.map_cons, List.pairwise_cons, List.mem_cons]
      refine ⟨?_, h.1, h.2⟩
      rintro x (rfl | hx)
      · exact hlt
      · exact lt_trans hlt (h.1 x hx)
    case isFalse hge =>
      split
      case isTrue heq =>
        subst heq
        simpa [Memory.wf] using h
      case isFalse hne =>
        simp only [Memory.wf, List.map_cons, List.pairwise_cons]
        refine ⟨fun x hx => ?_, ih h.2⟩
        rcases Memory.mem_addrs_write hx with rfl | hx
        · omega
        · exact h.1 x hx

/-- Every address listed after a write is below a bound both sides respect. -/
theorem Memory.addrs_lt_write {m : Memory} {n a : Nat} {b : Byte} (h : ∀ c ∈ m, c.1 < n) (ha : a < n) :
    ∀ c ∈ Memory.write m a b, c.1 < n := by
  intro c hc
  rcases Memory.mem_addrs_write (List.mem_map_of_mem (f := Prod.fst) hc) with h' | h'
  · omega
  · obtain ⟨d, hd, hdc⟩ := List.mem_map.1 h'
    have := h d hd
    omega

/-- The same read at every address and the canonical form make two memories equal data. -/
theorem Memory.eq_of_read?_eq {m m' : Memory} (h : Memory.wf m) (h' : Memory.wf m')
    (hr : ∀ a, Memory.read? m a = Memory.read? m' a) : m = m' := by
  have none_of_lt : ∀ {m : Memory} {a : Nat}, (∀ x ∈ m.map Prod.fst, a < x) → Memory.read? m a = none := by
    intro m a hm
    induction m with
    | nil => rfl
    | cons c rest ih =>
      have hne : a ≠ c.1 := by have := hm c.1 (by simp); omega
      simp only [Memory.read?, if_neg hne]
      exact ih fun x hx => hm x (by simp only [List.map_cons, List.mem_cons]; exact .inr hx)
  induction m generalizing m' with
  | nil =>
    cases m' with
    | nil => rfl
    | cons c rest =>
      have := hr c.1
      simp [Memory.read?] at this
  | cons c rest ih =>
    cases m' with
    | nil =>
      have := hr c.1
      simp [Memory.read?] at this
    | cons c' rest' =>
      simp only [Memory.wf, List.map_cons, List.pairwise_cons] at h h'
      have hc : c.1 = c'.1 := by
        rcases lt_trichotomy c.1 c'.1 with hlt | heq | hlt
        · have := hr c.1
          rw [none_of_lt (m := c' :: rest')] at this
          · simp [Memory.read?] at this
          · simp only [List.map_cons, List.mem_cons, forall_eq_or_imp]
            exact ⟨hlt, fun x hx => lt_trans hlt (h'.1 x hx)⟩
        · exact heq
        · have := hr c'.1
          rw [none_of_lt (m := c :: rest)] at this
          · simp [Memory.read?] at this
          · simp only [List.map_cons, List.mem_cons, forall_eq_or_imp]
            exact ⟨hlt, fun x hx => lt_trans hlt (h.1 x hx)⟩
      have hb : c.2 = c'.2 := by
        have := hr c.1
        simpa [Memory.read?, hc] using this
      have hrest : rest = rest' := by
        refine ih h.2 h'.2 fun a => ?_
        by_cases ha : a = c.1
        · rw [ha, none_of_lt h.1, hc, none_of_lt h'.1]
        · have := hr a
          simpa [Memory.read?, ha, hc ▸ ha] using this
      rw [hrest, Prod.ext hc hb]

@[simp] theorem msgByte_writeMsg_self (s : State) (i : Nat) (b : Byte) : msgByte (writeMsg s i b) i = b := by
  simp [msgByte]

theorem msgByte_writeMsg_ne (s : State) {i j : Nat} (b : Byte) (h : j ≠ i) :
    msgByte (writeMsg s i b) j = msgByte s j := by
  simp [msgByte, Memory.read?_write_ne s.MSG b h]

/-- `MSG:i` depends on the memory alone. -/
theorem msgByte_congr {s t : State} (h : t.MSG = s.MSG) (i : Nat) : msgByte t i = msgByte s i := by
  simp [msgByte, h]

end Sys2Proof.Machine
end

