-- ==== Sys2Proof/Laws/Decode.lean ====
section
/-! SUPPORT. The controller word and what it decodes to in each phase; the engine's step said once. -/

namespace Sys2Proof

@[simp] theorem uopPhase_packUop (p : BitVec 4) (t : BitVec 6) : uopPhase (packUop p t) = p := by
  revert p t; decide +kernel

@[simp] theorem uopT_packUop (p : BitVec 4) (t : BitVec 6) : uopT (packUop p t) = t := by
  revert p t; decide +kernel

theorem packUop_uopPhase_uopT (w : BitVec 10) : packUop (uopPhase w) (uopT w) = w := by
  revert w; decide +kernel

/-- WLOAD's row matches exactly the words with `T < 16` (30_encoding.md R101, R102). -/
theorem decodeWload_eq (t : BitVec 6) :
    decodeWload t = if t.toNat < 16 then .row (.wload (t.setWidth 4)) else .noRow .unreachableWload := by
  revert t; decide +kernel

namespace Machine

@[simp] theorem Phase.ofCode_code (p : Phase) : Phase.ofCode p.code = p := by cases p <;> rfl

@[simp] theorem Phase.code_ofCode (c : BitVec 4) : (Phase.ofCode c).code = c := by revert c; decide +kernel

/-- Placing a controller word in PHASE and T makes it the controller word. -/
theorem controllerWord_place (s : State) (w : BitVec 10) :
    controllerWord { s with PHASE := Phase.ofCode (uopPhase w), T := uopT w } = w := by
  simp [controllerWord, packUop_uopPhase_uopT]

/-- What the controller word of each phase decodes to (30_encoding.md R101, R102). -/
theorem decode_packUop_code (p : Phase) (t : BitVec 6) : decode (.uop (packUop p.code t)) =
    match p with
    | .idle => .row .idle
    | .lenchk => .row .lenchk
    | .padlen => .row .padlen
    | .parsechk => .row .parsechk
    | .hinit => .row .hinit
    | .bload => .row .bload
    | .wload => if t.toNat < 16 then .row (.wload (t.setWidth 4)) else .noRow .unreachableWload
    | .wexp => .row (.wexp t)
    | .vinit => .row .vinit
    | .round => .row (.round t)
    | .hmix => .row .hmix
    | .dout => .row .dout
    | .done => .row .done
    | .error => .row .error
    | .reservedE => .row .reservedE
    | .reservedF => .row .reservedF := by
  simp only [decode, decodeUop, uopPhase_packUop, uopT_packUop]
  cases p <;> first | rfl | exact decodeWload_eq t

/-- One step of the engine, phase by phase (46_top_level.md R202, R203, 30_encoding.md R102). -/
theorem engineStep_eq (s : State) : engineStep s =
    match s.PHASE with
    | .idle => execIdle s
    | .lenchk => execLenchk s
    | .padlen => execPadlen s
    | .parsechk => execParsechk s
    | .hinit => execHinit s
    | .bload => execBload s
    | .wload => if s.T.toNat < 16 then execWload (s.T.setWidth 4) s else .fault .stuckUnreachableWord
    | .wexp => execWexp s.T s
    | .vinit => execVinit s
    | .round => execRound s.T s
    | .hmix => execHmix s
    | .dout => execDout s
    | .done => execDone s
    | .error => execError s
    | .reservedE => execReservedE s
    | .reservedF => execReservedF s := by
  simp only [engineStep, controllerWord, decode_packUop_code]
  cases s.PHASE <;> try rfl
  by_cases h : s.T.toNat < 16 <;> simp [h, exec]

/-- A step with nothing pending is the engine's. -/
theorem step_of_no_input {s : State} (h : s.inputs = []) : step s = engineStep s := by simp [step, h]

/-- What a step is: the engine's, now or as the list of inputs says, or a move of the host. -/
theorem step_cases (s : State) :
    (s.inputs = [] ∧ step s = engineStep s) ∨
    (∃ rest, s.inputs = .engine :: rest ∧ step s = engineStep (takeInput s rest)) ∨
    (∃ m rest, s.inputs = .host m :: rest ∧ step s = hostMove m (takeInput s rest)) := by
  unfold step
  rcases h : s.inputs with _ | ⟨_ | _, rest⟩
  · exact .inl ⟨rfl, rfl⟩
  · exact .inr (.inr ⟨_, _, rfl, rfl⟩)
  · exact .inr (.inl ⟨_, rfl, rfl⟩)

end Machine

end Sys2Proof
end

