-- ==== Sys2Proof/Laws/Words.lean ====
section
/-! SUPPORT. Small lemmas about sums, bytes, padding counts and fixed-size vectors, in terms of natural numbers. -/

namespace Sys2Proof.Machine

/-! ### Sums (40_word_functions.md R120) -/

@[simp] theorem add32_nil : add32 [] = 0#32 := rfl

@[simp] theorem add32_cons (x : Word) (xs : List Word) : add32 (x :: xs) = x + add32 xs := rfl

/-! ### Vectors made index by index -/

theorem vector_get_eq {α : Type} {n : Nat} (v : Vector α n) (i : Fin n) : v.get i = v[i.val] := rfl

@[simp] theorem vector_get_ofFn {α : Type} {n : Nat} (f : Fin n → α) (i : Fin n) : (Vector.ofFn f).get i = f i := by
  simp [vector_get_eq]

theorem vector_ext_get {α : Type} {n : Nat} {v w : Vector α n} (h : ∀ i : Fin n, v.get i = w.get i) : v = w := by
  ext i hi
  exact h ⟨i, hi⟩

theorem vector_get_set_self {α : Type} {n : Nat} (v : Vector α n) (i : Fin n) (x : α) : (v.set i x).get i = x := by
  simp [vector_get_eq]

theorem vector_get_set_ne {α : Type} {n : Nat} (v : Vector α n) {i j : Fin n} (x : α) (h : j ≠ i) :
    (v.set i x).get j = v.get j := by
  have h' : i.val ≠ j.val := fun e => h (Fin.ext e.symm)
  exact Vector.getElem_set_ne i.isLt j.isLt h'

@[simp] theorem paddedBlock_get (s : State) (j : Fin 64) : (paddedBlock s).get j = PM s (blockBase s + j.val) := by
  simp [paddedBlock]

@[simp] theorem mixHash_get (H : Vector Word 8) (v : Vars) (i : Fin 8) :
    (mixHash H v).get i = H.get i + v.get i := by
  simp [mixHash]

@[simp] theorem digestBytes_get (H : Vector Word 8) (n : Fin 32) :
    (digestBytes H).get n = byteBe32 (H.get ⟨n.val / 4, by omega⟩) (n.val % 4) := by
  simp [digestBytes]

/-! ### Big-endian bytes (40_word_functions.md R130 to R132) -/

theorem byteBe32_toNat (x : Word) (j : Nat) : (byteBe32 x j).toNat = x.toNat / 2 ^ (24 - 8 * j) % 256 := by
  simp [byteBe32, BitVec.extractLsb'_toNat, Nat.shiftRight_eq_div_pow]

theorem byteBe64_toNat (x : BitVec 64) (j : Nat) : (byteBe64 x j).toNat = x.toNat / 2 ^ (56 - 8 * j) % 256 := by
  simp [byteBe64, BitVec.extractLsb'_toNat, Nat.shiftRight_eq_div_pow]

theorem append_toNat {m n : Nat} (x : BitVec m) (y : BitVec n) : (x ++ y).toNat = x.toNat * 2 ^ n + y.toNat := by
  rw [BitVec.toNat_append, ← Nat.shiftLeft_add_eq_or_of_lt y.isLt, Nat.shiftLeft_eq]

theorem be32_toNat (b0 b1 b2 b3 : Byte) : (be32 b0 b1 b2 b3).toNat =
    b0.toNat * 2 ^ 24 + b1.toNat * 2 ^ 16 + b2.toNat * 2 ^ 8 + b3.toNat := by
  simp only [be32, append_toNat]
  omega

/-! ### Counting -/

theorem toNat_add_one {n : Nat} (x : BitVec n) (h : x.toNat + 1 < 2 ^ n) : (x + 1).toNat = x.toNat + 1 := by
  have hn : 1 < 2 ^ n := by omega
  have h1 : BitVec.toNat (1 : BitVec n) = 1 := by
    show (BitVec.ofNat n 1).toNat = 1
    rw [BitVec.toNat_ofNat, Nat.mod_eq_of_lt hn]
  rw [BitVec.toNat_add, h1, Nat.mod_eq_of_lt h]

theorem eq_fifteen_iff (t : BitVec 4) : t = 15 ↔ t.toNat = 15 := by revert t; decide +kernel

theorem eq_sixtyThree_iff (t : BitVec 6) : t = 63 ↔ t.toNat = 63 := by revert t; decide +kernel

/-! ### Indices (30_encoding.md R96) -/

@[simp] theorem wordIndex_val (t : BitVec 6) : (wordIndex t).val = t.toNat := rfl

@[simp] theorem wordIndex_wload_val (t : BitVec 4) : (wordIndex (t.setWidth 6)).val = t.toNat := by
  have := t.isLt
  simp only [wordIndex_val, BitVec.toNat_setWidth]
  omega

@[simp] theorem tapIndex_val (t : BitVec 6) (n : Nat) : (tapIndex t n).val = t.toNat - n := rfl

@[simp] theorem blkIndex_val (t : BitVec 4) (j : Fin 4) : (blkIndex t j).val = 4 * t.toNat + j.val := rfl

/-! ### The padding count (41_padder.md R143, R144) -/

theorem padCount_int (l : Nat) : (padCount l : Int) = ((448 - (l : Int) - 8) % 512) / 8 := by
  unfold padCount
  omega

theorem padCount_lt (l : Nat) : padCount l < 64 := by
  unfold padCount
  omega

/-- R144 as natural numbers: `(55 - L) mod 64` is `(119 - L mod 64) mod 64`. -/
theorem padCount_eight_mul (L : Nat) : padCount (8 * L) = (119 - L % 64) % 64 := by
  unfold padCount
  omega

/-- R147 (b): the padded length. -/
theorem paddedLength_eq (L : Nat) : L + 1 + padCount (8 * L) + 8 = 64 * ((L + 8) / 64 + 1) := by
  rw [padCount_eight_mul]
  omega

@[simp] theorem bytesBe64_length (x : BitVec 64) : (bytesBe64 x).length = 8 := rfl

theorem padded_length (m : List Byte) :
    (Contract.padded m).length = m.length + 1 + padCount (8 * m.length) + 8 := by
  simp [Contract.padded]
  omega

end Sys2Proof.Machine
end

