-- ==== Sys2Proof/Laws/Exec.lean ====
section
/-! SUPPORT. What each meaning answers, said once as one equation over its operands, so that no later proof unfolds a
meaning. -/

namespace Sys2Proof.Machine

/-! ### The Padder and the Block Parser -/

theorem execLenchk_overflow {s : State} (h : 2 ^ 61 ≤ s.MSG_LEN.toNat) :
    execLenchk s = .next (raise .overflow s) := by
  simp only [execLenchk, if_pos h]

theorem execLenchk_ok {s : State} (h : s.MSG_LEN.toNat < 2 ^ 61) :
    execLenchk s = .next { s with LBITS := s.MSG_LEN <<< 3, PHASE := .padlen } := by
  simp only [execLenchk, if_neg (Nat.not_le.2 h)]

/-- `LBITS` is the exact product when the length check passed (10_state.md R29). -/
theorem lengthBits_toNat {x : BitVec 64} (h : x.toNat < 2 ^ 61) : (x <<< 3).toNat = 8 * x.toNat := by
  rw [BitVec.toNat_shiftLeft, Nat.shiftLeft_eq]
  omega

theorem execPadlen_error {s : State} (h : padlenLength s % 64 ≠ 0) : execPadlen s = .next (raise .padding s) := by
  simp only [execPadlen, if_pos h]

theorem execPadlen_ok {s : State} (h : padlenLength s % 64 = 0) :
    execPadlen s = .next { s with KPAD := BitVec.ofNat 6 (padlenCount s), PLEN := BitVec.ofNat 62 (padlenLength s),
                                  PHASE := .parsechk } := by
  simp only [execPadlen, h, ne_eq, not_true_eq_false, if_false]

/-- In an invocation the padded length is that of 41_padder.md R147 (b). -/
theorem padlenLength_eq {s : State} (h : s.LBITS.toNat = 8 * s.MSG_LEN.toNat) :
    padlenLength s = 64 * ((s.MSG_LEN.toNat + 8) / 64 + 1) := by
  simp only [padlenLength, padlenCount, msgLength, h]
  exact paddedLength_eq _

theorem execParsechk_error {s : State} (h : s.PLEN.toNat % 64 ≠ 0) :
    execParsechk s = .next (raise .invalidBlockLength s) := by
  simp only [execParsechk, if_pos h]

theorem execParsechk_ok {s : State} (h : s.PLEN.toNat % 64 = 0) :
    execParsechk s = .next { s with NB := s.PLEN.extractLsb' 6 56, BI := 0, PHASE := .hinit } := by
  simp only [execParsechk, h, ne_eq, not_true_eq_false, if_false]

theorem blocks_toNat (x : BitVec 62) : (x.extractLsb' 6 56).toNat = x.toNat / 64 := by
  have := x.isLt
  simp only [BitVec.extractLsb'_toNat, Nat.shiftRight_eq_div_pow]
  omega

theorem blockInPadded_iff (s : State) :
    blockInPadded s = true ↔ 64 * s.BI.toNat + 64 ≤ s.MSG_LEN.toNat + 1 + s.KPAD.toNat + 8 := by
  simp [blockInPadded]

/-- Some byte of the block is a Message byte the platform does not have. -/
theorem blockReadsBeyondCap_iff (s : State) : blockReadsBeyondCap s = true ↔
    ∃ j, j < 64 ∧ 64 * s.BI.toNat + j < s.MSG_LEN.toNat ∧ s.MSG_CAP.val ≤ 64 * s.BI.toNat + j := by
  simp only [blockReadsBeyondCap, blockBase, msgLength, decide_eq_true_eq]
  constructor
  · intro h
    exact ⟨max (64 * s.BI.toNat) s.MSG_CAP.val - 64 * s.BI.toNat, by omega, by omega, by omega⟩
  · rintro ⟨j, h⟩
    omega

/-- BLOAD answers exactly one of its three outcomes. -/
theorem execBload_eq (s : State) : execBload s =
    if blockInPadded s = true then
      if blockReadsBeyondCap s = true then .fault .msgBeyondCap
      else .next { s with BLK := paddedBlock s, T := 0, PHASE := .wload }
    else .fault .paddedIndexOutOfRange := rfl

theorem execBload_ok {s : State} (h : 64 * s.BI.toNat + 64 ≤ s.MSG_LEN.toNat + 1 + s.KPAD.toNat + 8)
    (hc : ∀ j, j < 64 → 64 * s.BI.toNat + j < s.MSG_LEN.toNat → 64 * s.BI.toNat + j < s.MSG_CAP.val) :
    execBload s = .next { s with BLK := paddedBlock s, T := 0, PHASE := .wload } := by
  have h2 : ¬ blockReadsBeyondCap s = true := by
    rw [blockReadsBeyondCap_iff]
    rintro ⟨j, hj, hl, hm⟩
    have := hc j hj hl
    omega
  rw [execBload_eq, if_pos ((blockInPadded_iff s).2 h), if_neg h2]

/-! ### PM (41_padder.md R145): which of its four parts an index falls in -/

theorem PM_message {s : State} {i : Nat} (h : i < s.MSG_LEN.toNat) : PM s i = msgByte s i := by
  simp only [PM, paddedByte, if_pos h]

theorem PM_marker {s : State} {i : Nat} (h : i = s.MSG_LEN.toNat) : PM s i = 0x80#8 := by
  have h1 : ¬ i < s.MSG_LEN.toNat := by omega
  simp only [PM, paddedByte, if_neg h1, if_pos h]

theorem PM_zero {s : State} {i : Nat} (h : s.MSG_LEN.toNat < i) (h' : i ≤ s.MSG_LEN.toNat + s.KPAD.toNat) :
    PM s i = 0x00#8 := by
  have h1 : ¬ i < s.MSG_LEN.toNat := by omega
  have h2 : ¬ i = s.MSG_LEN.toNat := by omega
  simp only [PM, paddedByte, if_neg h1, if_neg h2, if_pos h']

theorem PM_length {s : State} {i : Nat} (h : s.MSG_LEN.toNat + s.KPAD.toNat < i) :
    PM s i = byteBe64 s.LBITS (i - (s.MSG_LEN.toNat + 1 + s.KPAD.toNat)) := by
  have h1 : ¬ i < s.MSG_LEN.toNat := by omega
  have h2 : ¬ i = s.MSG_LEN.toNat := by omega
  have h3 : ¬ i ≤ s.MSG_LEN.toNat + s.KPAD.toNat := by omega
  simp only [PM, paddedByte, if_neg h1, if_neg h2, if_neg h3]

/-- PM depends on `L`, `KPAD`, `LBITS` and the Message bytes below `L`, and on nothing else. -/
theorem PM_congr {s t : State} {i : Nat} (hL : t.MSG_LEN = s.MSG_LEN) (hk : t.KPAD = s.KPAD) (hl : t.LBITS = s.LBITS)
    (hm : i < s.MSG_LEN.toNat → msgByte t i = msgByte s i) : PM t i = PM s i := by
  simp only [PM, paddedByte, msgLength, hL, hk, hl]
  by_cases h : i < s.MSG_LEN.toNat
  · simp only [if_pos h, hm h]
  · simp only [if_neg h]

/-- As `PM_congr`, for the block. -/
theorem paddedBlock_congr {s t : State} (hb : t.BI = s.BI) (hL : t.MSG_LEN = s.MSG_LEN) (hk : t.KPAD = s.KPAD)
    (hl : t.LBITS = s.LBITS)
    (hm : ∀ i, 64 * s.BI.toNat ≤ i → i < 64 * s.BI.toNat + 64 → i < s.MSG_LEN.toNat → msgByte t i = msgByte s i) :
    paddedBlock t = paddedBlock s := by
  apply vector_ext_get
  intro j
  simp only [paddedBlock_get, blockBase, hb]
  exact PM_congr hL hk hl (hm _ (by omega) (by omega))

/-! ### The Compressor -/

theorem execWload_eq (t : BitVec 4) (s : State) : execWload t s =
    .next { s with
      W := s.W.set (wordIndex (t.setWidth 6)) (blockWord s t)
      T := if t = 15 then 16 else t.setWidth 6 + 1
      PHASE := if t = 15 then .wexp else .wload } := by
  by_cases h : t = 15
  · simp only [execWload, if_pos h]; rfl
  · simp only [execWload, if_neg h]; rfl

/-- The `T` WLOAD leaves: `t + 1`, which is 16 after the last one (43_compressor_schedule.md R171). -/
theorem wload_next_toNat (t : BitVec 4) : (if t = 15 then 16 else t.setWidth 6 + 1 : BitVec 6).toNat = t.toNat + 1 := by
  revert t; decide +kernel

theorem execWexp_eq {t : BitVec 6} (ht : 16 ≤ t.toNat) (s : State) : execWexp t s =
    .next { s with
      W := s.W.set (wordIndex t) (expandedWord s t)
      T := if t = 63 then s.T else t + 1
      PHASE := if t = 63 then .vinit else .wexp } := by
  by_cases h : t = 63
  · simp only [execWexp, if_pos ht, if_pos h]; rfl
  · simp only [execWexp, if_pos ht, if_neg h]; rfl

theorem execWexp_stuck {t : BitVec 6} (ht : t.toNat < 16) (s : State) :
    execWexp t s = .fault .stuckUnreachableWord := by
  simp only [execWexp, if_neg (Nat.not_le.2 ht)]

theorem execRound_eq (t : BitVec 6) (s : State) : execRound t s =
    .next { s with
      v := roundVars s.v (K (wordIndex t)) (s.W.get (wordIndex t))
      T := if t = 63 then s.T else t + 1
      PHASE := if t = 63 then .hmix else .round } := by
  by_cases h : t = 63
  · simp only [execRound, if_pos h]
  · simp only [execRound, if_neg h]

/-! ### START -/

theorem acceptsStart_iff (s : State) :
    acceptsStart s = true ↔ s.PHASE = .idle ∨ s.PHASE = .done ∨ s.PHASE = .error := by
  simp [acceptsStart, or_assoc]

theorem execStart_accepted {s : State} (h : s.PHASE = .idle ∨ s.PHASE = .done ∨ s.PHASE = .error) : execStart s =
    .next { s with PHASE := .lenchk, ERRCODE := .none, T := 0, DIGEST := Config.unspecDigest s.draws,
                   draws := s.draws + 1 } := by
  simp only [execStart, if_pos ((acceptsStart_iff s).2 h)]; rfl

theorem execStart_ignored {s : State} (h : ¬ (s.PHASE = .idle ∨ s.PHASE = .done ∨ s.PHASE = .error)) :
    execStart s = .next s := by
  simp only [execStart, if_neg (mt (acceptsStart_iff s).1 h)]

/-! ### STATUS (10_state.md R36, R38) -/

theorem busy_iff (s : State) : busy s = true ↔ 1 ≤ s.PHASE.code.toNat ∧ s.PHASE.code.toNat ≤ 11 := by
  simp [busy]

/-- STATUS as a number: its six fields, each at its place. -/
theorem status_toNat (s : State) : (status s).toNat =
    16 * s.ERRCODE.code.toNat + 4 * (errFlag s).toNat + 2 * (doneFlag s).toNat + (busy s).toNat := by
  simp only [status, append_toNat, BitVec.toNat_ofBool]
  simp
  omega

@[simp] theorem status_bit0 (s : State) : (status s).getLsbD 0 = busy s := by
  rw [status, BitVec.getLsbD_append]
  simp

end Sys2Proof.Machine
end

