-- ==== Sys2Proof/Laws/Contract.lean ====
section
/-! SUPPORT. Lengths and elements of the lists of the stage contracts. -/

namespace Sys2Proof.Machine

@[simp] theorem message_length (s : State) : (message s).length = s.MSG_LEN.toNat := by simp [message]

namespace Contract

@[simp] theorem firstWords_length (B : Block) : (firstWords B).length = 16 := by simp [firstWords]

theorem firstWords_getD (B : Block) {t : Nat} (h : t < 16) : (firstWords B).getD t 0 =
    be32 (B.get ⟨4 * t, by omega⟩) (B.get ⟨4 * t + 1, by omega⟩) (B.get ⟨4 * t + 2, by omega⟩)
      (B.get ⟨4 * t + 3, by omega⟩) := by
  rw [List.getD_eq_getElem _ _ (by simpa using h)]
  simp [firstWords]

theorem scheduleUpTo_succ (B : Block) (n : Nat) :
    scheduleUpTo B (n + 1) = scheduleUpTo B n ++ [nextWord (scheduleUpTo B n) (16 + n)] := rfl

@[simp] theorem scheduleUpTo_length (B : Block) (n : Nat) : (scheduleUpTo B n).length = 16 + n := by
  induction n with
  | zero => exact firstWords_length B
  | succ n ih => rw [scheduleUpTo_succ, List.length_append, ih]; rfl

/-- A word once made stays. -/
theorem scheduleUpTo_getD_of_le (B : Block) {m n i : Nat} (h : m ≤ n) (hi : i < 16 + m) :
    (scheduleUpTo B n).getD i 0 = (scheduleUpTo B m).getD i 0 := by
  induction n with
  | zero => rw [Nat.le_zero.1 h]
  | succ n ih =>
    by_cases hm : m = n + 1
    · rw [hm]
    · rw [scheduleUpTo_succ, List.getD_append _ _ _ _ (by rw [scheduleUpTo_length]; omega), ih (by omega)]

/-- The word made last. -/
theorem scheduleUpTo_getD_last (B : Block) (n : Nat) :
    (scheduleUpTo B (n + 1)).getD (16 + n) 0 = nextWord (scheduleUpTo B n) (16 + n) := by
  rw [scheduleUpTo_succ, List.getD_append_right _ _ _ _ (by rw [scheduleUpTo_length]), scheduleUpTo_length,
    Nat.sub_self, List.getD_cons_zero]

theorem schedule_eq (B : Block) : schedule B = scheduleUpTo B 48 := by rw [schedule]

@[simp] theorem schedule_length (B : Block) : (schedule B).length = 64 := by
  rw [schedule_eq, scheduleUpTo_length]

/-- 64 words that agree with the Message Schedule one by one are the Message Schedule. -/
theorem toList_eq_schedule {B : Block} {W : Vector Word 64}
    (h : ∀ i : Fin 64, W.get i = (scheduleUpTo B 48).getD i.val 0) : W.toList = schedule B := by
  rw [← schedule_eq] at h
  generalize hl : schedule B = l at h
  have hlen : l.length = 64 := by rw [← hl, schedule_length]
  apply List.ext_getElem
  · simp [hlen]
  · intro i h1 h2
    have := h ⟨i, by omega⟩
    rw [List.getD_eq_getElem _ _ h2] at this
    rw [Vector.getElem_toList]
    exact this

theorem block_get (p : List Byte) (j : Nat) (i : Fin 64) : (block p j).get i = p.getD (64 * j + i.val) 0 := by
  rw [block, vector_get_ofFn]

@[simp] theorem serialise_length (S : Vector Word 8) : (serialise S).length = 32 := rfl

end Contract

end Sys2Proof.Machine
end

