-- ==== Sys2Proof/Laws/PerInstr.lean ====
section
/-! SUPPORT. Statements for all instructions, one lemma per constructor of Instr. -/

namespace Sys2Proof.Laws.DecodeEncode

/-- The word of a well-formed operation, where it has one, decodes to it (30_encoding.md R98, R101). -/
def Statement (i : Instr) : Prop := i.WellFormed → ∀ w, encode i = some w → decode w = .row i

theorem start : Statement .start := by rintro _ w h; cases h; rfl
theorem lenchk : Statement .lenchk := by rintro _ w h; cases h; rfl
theorem padlen : Statement .padlen := by rintro _ w h; cases h; rfl
theorem parsechk : Statement .parsechk := by rintro _ w h; cases h; rfl
theorem hinit : Statement .hinit := by rintro _ w h; cases h; rfl
theorem bload : Statement .bload := by rintro _ w h; cases h; rfl
theorem wload (t : BitVec 4) : Statement (.wload t) := by
  rintro _ w h; cases h; revert t; decide +kernel
theorem wexp (t : BitVec 6) : Statement (.wexp t) := by
  rintro _ w h; cases h; simp [decode, decodeUop]
theorem vinit : Statement .vinit := by rintro _ w h; cases h; rfl
theorem round (t : BitVec 6) : Statement (.round t) := by
  rintro _ w h; cases h; simp [decode, decodeUop]
theorem hmix : Statement .hmix := by rintro _ w h; cases h; rfl
theorem dout : Statement .dout := by rintro _ w h; cases h; rfl
theorem idle : Statement .idle := by rintro _ w h; cases h; rfl
theorem done : Statement .done := by rintro _ w h; cases h; rfl
theorem error : Statement .error := by rintro _ w h; cases h; rfl
theorem reservedE : Statement .reservedE := by rintro _ w h; cases h; rfl
theorem reservedF : Statement .reservedF := by rintro _ w h; cases h; rfl
theorem pad : Statement .pad := by rintro _ w h; cases h
theorem parse : Statement .parse := by rintro _ w h; cases h
theorem compress : Statement .compress := by rintro _ w h; cases h
theorem sha256 : Statement .sha256 := by rintro _ w h; cases h

end Sys2Proof.Laws.DecodeEncode
end

