-- ==== Sys2Proof/Laws/Run.lean ====
section
/-! SUPPORT. Runs of several steps, and the engine's step in each phase where nothing is pending. -/

namespace Sys2Proof.Machine

@[simp] theorem run_zero (s : State) : runTimes step 0 s = .next s := rfl

theorem run_succ (n : Nat) (s : State) : runTimes step (n + 1) s = chain (step s) (runTimes step n) := rfl

@[simp] theorem run_one (s : State) : runTimes step 1 s = step s := by
  rw [run_succ, show runTimes step 0 = .next from rfl, chain_next_right]

/-- A run of `m + n` steps is a run of `m` and then one of `n`. -/
theorem run_add (m n : Nat) (s : State) :
    runTimes step (m + n) s = chain (runTimes step m s) (runTimes step n) := by
  induction m generalizing s with
  | zero => simp
  | succ m ih =>
    rw [show m + 1 + n = m + n + 1 by omega, run_succ, run_succ, chain_assoc]
    congr 1
    funext u
    exact ih u

/-- One step of a run of the host's interface, by the step's outcome. -/
theorem host_run_succ (M : Host.Core) (n : Nat) (s : M.State) :
    (∀ t, M.step s = .next t → M.run (n + 1) s = M.run n t) ∧
    (∀ r, M.step s = .fault r → M.run (n + 1) s = .fault r) ∧
    (∀ r, M.step s = .refused r → M.run (n + 1) s = .refused r) := by
  refine ⟨fun t h => ?_, fun r h => ?_, fun r h => ?_⟩ <;> simp [Host.Core.run, h]

/-- `runTimes step` is the run of the host's interface. -/
theorem core_run_eq (n : Nat) (s : State) : Sys2Proof.core.run n s = runTimes step n s := by
  induction n generalizing s with
  | zero => rfl
  | succ n ih =>
    obtain ⟨h1, h2, h3⟩ := host_run_succ Sys2Proof.core n s
    rw [run_succ]
    cases h : step s with
    | next t => exact (h1 t h).trans (ih t)
    | fault r => exact h2 r h
    | refused r => exact h3 r h

end Sys2Proof.Machine
end

