-- ==== Sys2Proof/Tests/Slice0.lean ====
section
/-! SUPPORT. The model's own tests: expected values are those of 95_test_vectors.md (V1 to V17, P1), of 40_word_functions.md
R136 and of the patterns of 30_encoding.md R101. After them, for every statement with hypotheses, a concrete state and
operands that meet them, clause by clause at the boundary of its range. -/

namespace Sys2Proof.Tests

set_option Elab.async false

open Sys2Proof Sys2Proof.Machine

/-! ### Small states -/

/-- All registers 0, in IDLE, with 64 bytes of platform memory. -/
def blank : State where
  H := Vector.replicate 8 0
  v := ⟨0, 0, 0, 0, 0, 0, 0, 0⟩
  W := Vector.replicate 64 0
  BLK := Vector.replicate 64 0
  DIGEST := Vector.replicate 32 0
  MSG_LEN := 0
  LBITS := 0
  KPAD := 0
  PLEN := 0
  NB := 0
  BI := 0
  T := 0
  PHASE := .idle
  ERRCODE := .none
  MSG := []
  MSG_CAP := ⟨64, by decide⟩
  inputs := []
  reads := []
  draws := 0

/-- "abc" in MSG with the lengths of V2. -/
def abc : State :=
  { blank with MSG := [(0, 0x61), (1, 0x62), (2, 0x63)], MSG_LEN := 3, LBITS := 24, KPAD := 52, PLEN := 64, NB := 1 }

/-- The outcome is a next state that satisfies `p`. -/
def after (o : Result) (p : State → Bool) : Bool :=
  match o with
  | .next t => p t
  | .fault _ => false
  | .refused _ => false

/-- The outcome is the fault `r`. -/
def stopsWith (o : Result) (r : Fault) : Bool :=
  match o with
  | .next _ => false
  | .fault q => decide (q = r)
  | .refused _ => false

/-! ### WellFormed (30_encoding.md R101): WEXP's constraint is the one check -/

theorem test_wellFormed_refuses_wexp_below_16 : ¬ Instr.WellFormed (.wexp 3) ∧ ¬ Instr.WellFormed (.wexp 15) := by decide
theorem test_wellFormed_accepts_wexp_from_16 : Instr.WellFormed (.wexp 16) ∧ Instr.WellFormed (.wexp 63) := by decide

/-! ### Decode: words written out from the patterns of 30_encoding.md R98, R101, with the T of a real run (P1) -/

theorem test_decode_command : decode (.command 0b00000001#8) = .row .start ∧
    decode (.command 0b00000000#8) = .noRow .reservedCommand ∧
    decode (.command 0b00000010#8) = .noRow .reservedCommand := by decide
theorem test_decode_padder : decode (.uop 0b0001000000#10) = .row .lenchk ∧
    decode (.uop 0b0010000000#10) = .row .padlen := by decide
theorem test_decode_parser : decode (.uop 0b0011000000#10) = .row .parsechk ∧
    decode (.uop 0b0101000000#10) = .row .bload ∧ decode (.uop 0b0101111111#10) = .row .bload := by decide
theorem test_decode_schedule : decode (.uop 0b0110000101#10) = .row (.wload 5) ∧
    decode (.uop 0b0110001111#10) = .row (.wload 15) ∧ decode (.uop 0b0111010000#10) = .row (.wexp 16) ∧
    decode (.uop 0b0111111111#10) = .row (.wexp 63) := by decide
theorem test_decode_round : decode (.uop 0b1000111111#10) = .row .vinit ∧
    decode (.uop 0b1001000000#10) = .row (.round 0) ∧ decode (.uop 0b1001111111#10) = .row (.round 63) := by decide
theorem test_decode_state : decode (.uop 0b0100000000#10) = .row .hinit ∧ decode (.uop 0b1010111111#10) = .row .hmix ∧
    decode (.uop 0b1011111111#10) = .row .dout := by decide
theorem test_decode_waiting : decode (.uop 0b0000000000#10) = .row .idle ∧ decode (.uop 0b1100111111#10) = .row .done ∧
    decode (.uop 0b1101000000#10) = .row .error := by decide
theorem test_decode_reserved : decode (.uop 0b1110000000#10) = .row .reservedE ∧
    decode (.uop 0b1111000000#10) = .row .reservedF ∧ decode (.uop 0b0110010000#10) = .noRow .unreachableWload := by decide
theorem test_decodeTableWord : decodeTableWord 8 0x01 = some .start ∧ decodeTableWord 16 0x1d0 = some (.wexp 16) ∧
    decodeTableWord 16 0x2bf = some .hmix ∧ decodeTableWord 8 0x02 = none ∧ decodeTableWord 16 0x190 = none := by decide

/-! ### Word functions (V8, V9, R136) -/

theorem test_add32_wraps : add32 [0xffffffff, 1] = 0 ∧
    add32 [0xffffffff, 0xffffffff, 0xffffffff, 0xffffffff, 0xffffffff] = 0xfffffffb := by decide
theorem test_rotr : rotr 1 1 = 0x80000000 ∧ rotr 0x6a09e667 7 = 0xced413cc ∧ rotr 0x12345678 31 = 0x2468acf0 := by decide
theorem test_bsig : bsig0 0x6a09e667 = 0xce20b47e ∧ bsig1 0x6a09e667 = 0x55b65510 := by decide
theorem test_ssig : ssig0 0x6a09e667 = 0xba0cf582 ∧ ssig1 0xffffffff = 0x003fffff := by decide
theorem test_ch : ch 0x510e527f 0x9b05688c 0x1f83d9ab = 0x1f85c98c := by decide
theorem test_maj : maj 0x6a09e667 0xbb67ae85 0x3c6ef372 = 0x3a6fe667 := by decide
theorem test_be32 : be32 0xff 0 0 1 = 0xff000001 ∧ bytesBe32 0xe3b0c442 = [0xe3, 0xb0, 0xc4, 0x42] := by decide
theorem test_bytesBe64 : bytesBe64 0x1b8 = [0, 0, 0, 0, 0, 0, 1, 0xb8] := by decide
theorem test_padCount : padCount 0 = 55 ∧ padCount 24 = 52 ∧ padCount 0x1b8 = 0 ∧ padCount 0x1c0 = 63 := by decide

/-! ### The Padder (V5, V12, V13, V16) -/

theorem test_lenchk_boundary : after (exec .lenchk { blank with MSG_LEN := 0x1fffffffffffffff }) (fun t =>
    decide (t.LBITS = 0xfffffffffffffff8) && decide (t.PHASE = .padlen)) = true := by decide
theorem test_lenchk_overflow : after (exec .lenchk { blank with MSG_LEN := 0x2000000000000001 }) (fun t =>
    decide (t.LBITS = 0) && decide (status t = 0x14)) = true := by decide
theorem test_padlen_abc : after (exec .padlen { blank with MSG_LEN := 3, LBITS := 24 }) (fun t =>
    decide (t.KPAD = 52) && decide (t.PLEN = 64) && decide (t.PHASE = .parsechk)) = true := by decide
theorem test_padlen_error : after (exec .padlen { blank with MSG_LEN := 1 }) (fun t => decide (status t = 0x24)) = true := by
  decide
theorem test_pad_56 : after (exec .pad { blank with MSG_LEN := 56 }) (fun t =>
    decide (t.KPAD = 63) && decide (t.PLEN = 128)) = true := by decide

/-! ### The Block Parser (V2, V13, V16) -/

theorem test_parsechk_two_blocks : after (exec .parsechk { blank with PLEN := 128, BI := 7 }) (fun t =>
    decide (t.NB = 2) && decide (t.BI = 0) && decide (t.PHASE = .hinit)) = true := by decide
theorem test_parsechk_error : after (exec .parsechk { blank with PLEN := 65 }) (fun t => decide (status t = 0x34)) = true := by
  decide
theorem test_parse_error : after (exec .parse { blank with PLEN := 1 }) (fun t => decide (t.ERRCODE = .invalidBlockLength)) =
    true := by decide
theorem test_bload_abc : after (exec .bload abc) (fun t =>
    decide (t.BLK.toList = [0x61, 0x62, 0x63, 0x80] ++ List.replicate 59 0 ++ [0x18])) = true := by decide +kernel
theorem test_bload_stops : stopsWith (exec .bload { abc with BI := 1 }) .paddedIndexOutOfRange = true ∧
    stopsWith (exec .bload { abc with MSG_CAP := ⟨2, by decide⟩ }) .msgBeyondCap = true := by decide +kernel

/-! ### The Compressor (V10, V14, V11) -/

theorem test_wload : after (exec (.wload 15) { blank with BLK := (Vector.replicate 64 0).set 63 0x18 }) (fun t =>
    decide (t.W.get 15 = 0x18) && decide (t.T = 16) && decide (t.PHASE = .wexp)) = true := by decide +kernel
theorem test_wexp : after (exec (.wexp 16) { blank with W := Vector.replicate 64 0x80000000 }) (fun t =>
    decide (t.W.get 16 = 0x11207000) && decide (t.T = 17) && decide (t.PHASE = .wexp)) = true := by decide +kernel
theorem test_wexp_taps : after (exec (.wexp 17) { blank with W := (Vector.replicate 64 0).set 2 0x61626380 }) (fun t =>
    decide (t.W.get 17 = 0x940e90ef)) = true ∧
    after (exec (.wexp 17) { blank with W := (Vector.replicate 64 0).set 15 0x18 }) (fun t =>
    decide (t.W.get 17 = 0x000f0000)) = true := by decide +kernel
theorem test_vinit : after (exec .vinit { blank with H := H0, T := 63 }) (fun t =>
    decide (t.v = ⟨0x6a09e667, 0xbb67ae85, 0x3c6ef372, 0xa54ff53a, 0x510e527f, 0x9b05688c, 0x1f83d9ab, 0x5be0cd19⟩) &&
      decide (t.T = 0)) = true := by decide +kernel
theorem test_round_order : after (exec (.round 0) { blank with v := ⟨1, 2, 3, 4, 5, 6, 7, 8⟩ }) (fun t =>
    decide (t.v = ⟨0x97323629, 1, 2, 3, 0x572a322a, 5, 6, 7⟩)) = true := by decide +kernel
theorem test_round_last : after (exec (.round 63)
    { blank with W := Vector.replicate 64 0xffffffff, T := 63,
                 v := ⟨0xffffffff, 0xffffffff, 0xffffffff, 0xffffffff, 0xffffffff, 0xffffffff, 0xffffffff, 0xffffffff⟩ })
    (fun t => decide (t.v.a = 0xc67178ec) && decide (t.v.e = 0xc67178ed) && decide (t.T = 63) &&
      decide (t.PHASE = .hmix)) = true := by decide +kernel
theorem test_hinit : after (exec .hinit { blank with NB := 1 }) (fun t =>
    decide (t.H.get 7 = 0x5be0cd19) && decide (t.PHASE = .bload)) = true := by decide +kernel
theorem test_hmix : after (exec .hmix
    { blank with H := Vector.replicate 8 0xffffffff, v := ⟨1, 1, 1, 1, 1, 1, 1, 1⟩, NB := 1 }) (fun t =>
    decide (t.H = Vector.replicate 8 0) && decide (t.BI = 1) && decide (t.PHASE = .dout)) = true := by decide +kernel
theorem test_dout : after (exec .dout
    { blank with H := #v[0x01020304, 0x05060708, 0x090a0b0c, 0x0d0e0f10, 0x11121314, 0x15161718, 0x191a1b1c, 0x1d1e1f20] })
    (fun t => decide (t.DIGEST.toList.map BitVec.toNat = List.range' 1 32) && decide (t.PHASE = .done)) = true := by
  decide +kernel
theorem test_compress_of_no_blocks : after (exec .compress blank) (fun t =>
    decide (t.DIGEST.toList.take 8 = [0x6a, 0x09, 0xe6, 0x67, 0xbb, 0x67, 0xae, 0x85])) = true := by decide +kernel

/-! ### The top level (V1, V2, V16, V17) -/

theorem test_start : after (exec .start { blank with PHASE := .error, ERRCODE := .padding, T := 5 }) (fun t =>
    decide (t.PHASE = .lenchk) && decide (t.ERRCODE = .none) && decide (t.T = 0)) = true := by decide
theorem test_start_ignored : after (exec .start { blank with PHASE := .dout }) (fun t => decide (t = { blank with PHASE := .dout })) =
    true := by decide +kernel
theorem test_waiting : after (exec .idle abc) (fun t => decide (t = abc)) = true ∧
    after (exec .done abc) (fun t => decide (t = abc)) = true ∧
    after (exec .error abc) (fun t => decide (t = abc)) = true := by decide +kernel
theorem test_reserved : stopsWith (exec .reservedE blank) .stuckReservedPhase = true ∧
    stopsWith (exec .reservedF blank) .stuckReservedPhase = true := by decide
theorem test_sha256_empty : after (exec .sha256 blank) (fun t =>
    decide (t.H = #v[0xe3b0c442, 0x98fc1c14, 0x9afbf4c8, 0x996fb924, 0x27ae41e4, 0x649b934c, 0xa495991b, 0x7852b855]) &&
      decide (t.W.get 63 = 0x3b5ec49b) && decide (t.v.a = 0x79a6dddb)) = true := by decide +kernel
theorem test_contract_abc : (match Contract.sha256 [0x61, 0x62, 0x63] with
    | .ok d => decide (d.take 8 = [0xba, 0x78, 0x16, 0xbf, 0x8f, 0x01, 0xcf, 0xea])
    | .error _ => false) = true := by decide +kernel

/-! ### Host moves (V17) -/

theorem test_host_write_read : after (step { blank with inputs := [.host (.writeMsgLen 9)] }) (fun t =>
    decide (t.MSG_LEN = 9)) = true ∧
    after (step { blank with PHASE := .bload, inputs := [.host (.writeMsgLen 9)] }) (fun t =>
    decide (t.MSG_LEN = 0)) = true := by decide
theorem test_host_status : after (step { blank with PHASE := .error, ERRCODE := .overflow, inputs := [.host .readStatus] })
    (fun t => decide (t.reads = [.status 0x14])) = true := by decide
theorem test_host_msg : after (step { blank with MSG := [(4, 7)], inputs := [.host (.writeMsg 2 0x61)] }) (fun t =>
    decide (t.MSG = [(2, 0x61), (4, 7)])) = true := by decide

/-! ### Witnesses: the encodings and the step -/

theorem witness_DecodeEncodeAgree : Instr.WellFormed (.wexp 16) ∧ encode (.wexp 16) = some (.uop 0x1d0#10) ∧
    Instr.WellFormed (.round 63) ∧ encode (.round 63) = some (.uop 0x27f#10) ∧
    Instr.WellFormed .pad ∧ encode .pad = none := by decide
theorem witness_EncodeDecodeKeepsEveryReadBit : decode (.command 0x01#8) = .row .start ∧
    decode (.uop 0x23f#10) = .row .vinit ∧ decode (.uop 0x18f#10) = .row (.wload 15) ∧
    decode (.uop 0x1c0#10) = .row (.wexp 0) ∧ decode (.uop 0x27f#10) = .row (.round 63) := by decide
theorem witness_WordSelectsItsTableRow :
    0x03f#10 &&& 0x3c0#10 = 0x000#10 ∧ 0x040#10 &&& 0x3c0#10 = 0x040#10 ∧ 0x0bf#10 &&& 0x3c0#10 = 0x080#10 ∧
    0x0c0#10 &&& 0x3c0#10 = 0x0c0#10 ∧ 0x13f#10 &&& 0x3c0#10 = 0x100#10 ∧ 0x17f#10 &&& 0x3c0#10 = 0x140#10 ∧
    0x18f#10 &&& 0x3f0#10 = 0x180#10 ∧ (0x190#10 &&& 0x3c0#10 = 0x180#10 ∧ 0x190#10 &&& 0x3f0#10 ≠ 0x180#10) ∧
    0x1d0#10 &&& 0x3c0#10 = 0x1c0#10 ∧ 0x23f#10 &&& 0x3c0#10 = 0x200#10 ∧ 0x27f#10 &&& 0x3c0#10 = 0x240#10 ∧
    0x2bf#10 &&& 0x3c0#10 = 0x280#10 ∧ 0x2ff#10 &&& 0x3c0#10 = 0x2c0#10 ∧ 0x33f#10 &&& 0x3c0#10 = 0x300#10 ∧
    0x340#10 &&& 0x3c0#10 = 0x340#10 ∧ 0x3bf#10 &&& 0x3c0#10 = 0x380#10 ∧ 0x3ff#10 &&& 0x3c0#10 = 0x3c0#10 := by decide
theorem witness_StepRunsTheDecodedOperation :
    decode (.uop (packUop (Phase.code ({ blank with PHASE := .round, T := 63 } : State).PHASE) 63)) = .row (.round 63) ∧
    ({ blank with PHASE := .round, T := 63 } : State).inputs = [] ∧
    ({ blank with inputs := [.engine] } : State).inputs = .engine :: [] := by decide
theorem witness_CtrlWriteIsACommandOrIgnored :
    ({ blank with inputs := [.host (.writeCtrl 0x01#8)] } : State).inputs = .host (.writeCtrl 0x01#8) :: [] ∧
    ({ blank with inputs := [.host (.writeCtrl 0x02#8)] } : State).inputs = .host (.writeCtrl 0x02#8) :: [] ∧
    0x02#8 ≠ 0x01#8 := by decide
theorem witness_PlacedWordRunsNext : decode (.uop 0x18f#10) = .row (.wload 15) ∧
    decode (.uop 0x3c0#10) = .row .reservedF := by decide
theorem witness_ReservedAndUnreachableWordsAreStuck : (15#6).toNat < 16 ∧
    (({ blank with PHASE := .wload, T := 16 } : State).inputs = [] ∧
      ({ blank with PHASE := .wload, T := 16 } : State).PHASE = .wload ∧
      16 ≤ ({ blank with PHASE := .wload, T := 16 } : State).T.toNat) ∧
    (({ blank with PHASE := .wexp, T := 15 } : State).inputs = [] ∧
      ({ blank with PHASE := .wexp, T := 15 } : State).PHASE = .wexp ∧
      ({ blank with PHASE := .wexp, T := 15 } : State).T.toNat < 16) := by decide

/-! ### Witnesses: word functions, Padder, Block Parser -/

theorem witness_Add32IsTheSumModulo : [0xffffffff#32, 1#32].Perm [1#32, 0xffffffff#32] := by decide
theorem witness_RotateMovesBitsAndShiftDivides : (1 ≤ 1 ∧ 1 ≤ 31) ∧ (1 ≤ 31 ∧ 31 ≤ 31) ∧ 31 < 32 := by decide
theorem witness_ChSelectsAndMajVotes : 0 < 32 ∧ 31 < 32 := by decide
theorem witness_SigmaBits : 0 < 32 ∧ 31 < 32 := by decide
theorem witness_BigEndianNumbersAndWordBytes : 0 < 4 ∧ 3 < 4 := by decide
theorem witness_BigEndianLengthRoundTrip : 0 < 8 ∧ 7 < 8 := by decide
theorem witness_ConstantTablesAreRootsOfPrimes : (Nat.Prime 2 ∧ Nat.count Nat.Prime 2 = (0 : Fin 64).val ∧
    1 ^ 3 ≤ 2 ∧ 2 < (1 + 1) ^ 3) ∧ (Nat.Prime 19 ∧ Nat.count Nat.Prime 19 = (7 : Fin 8).val ∧ 4 ^ 2 ≤ 19 ∧ 19 < (4 + 1) ^ 2) := by
  decide +kernel
theorem witness_PaddingCountForms : 55 % 64 ≤ 55 ∧ 56 ≤ 56 % 64 ∧ 56 ≤ 63 % 64 := by decide
theorem witness_PaddedLengthProperties : (List.replicate 55 (0x61 : Byte)).length < 2 ^ 61 ∧
    (List.replicate 55 (0x61 : Byte)).length % 64 ≤ 55 ∧ 56 ≤ (List.replicate 56 (0x61 : Byte)).length % 64 ∧
    (64 % 64 = 0 ∧ (List.replicate 55 (0x61 : Byte)).length + 9 ≤ 64) := by decide
theorem witness_Sha256IsTotalWithFixedSize : 2 ^ 61 ≤ (List.replicate (2 ^ 61) (0 : Byte)).length ∧
    (List.replicate (2 ^ 61 - 1) (0 : Byte)).length < 2 ^ 61 ∧
    (match Contract.sha256 [] with | .ok _ => true | .error _ => false) = true :=
  ⟨le_of_eq List.length_replicate.symm, lt_of_eq_of_lt List.length_replicate (by decide), by decide +kernel⟩
theorem witness_LenchkChecksTheLength : 2 ^ 61 ≤ ({ blank with MSG_LEN := 0x2000000000000000 } : State).MSG_LEN.toNat ∧
    ({ blank with MSG_LEN := 0x1fffffffffffffff } : State).MSG_LEN.toNat < 2 ^ 61 := by decide
theorem witness_PadlenComputesThePadding : ((55 : Nat) : Int) = ((448 - (blank.LBITS.toNat : Int) - 8) % 512) / 8 ∧
    (65 = ({ blank with MSG_LEN := 1 } : State).MSG_LEN.toNat + 1 + 55 + 8 ∧ 65 % 64 ≠ 0) ∧
    (64 = blank.MSG_LEN.toNat + 1 + 55 + 8 ∧ 64 % 64 = 0 ∧ 64 < 2 ^ 62) ∧
    blank.MSG_LEN.toNat < 2 ^ 61 ∧ blank.LBITS.toNat = 8 * blank.MSG_LEN.toNat := by decide
theorem witness_ParsechkCountsTheBlocks : ({ blank with PLEN := 65 } : State).PLEN.toNat % 64 ≠ 0 ∧
    abc.PLEN.toNat % 64 = 0 := by decide
theorem witness_BloadLoadsThePaddedBlock : 64 * abc.BI.toNat + 64 ≤ abc.MSG_LEN.toNat + 1 + abc.KPAD.toNat + 8 ∧
    (∀ j, j < 64 → 64 * abc.BI.toNat + j < abc.MSG_LEN.toNat → 64 * abc.BI.toNat + j < abc.MSG_CAP.val) ∧
    2 < abc.MSG_LEN.toNat ∧ 3 = abc.MSG_LEN.toNat ∧
    (abc.MSG_LEN.toNat < 55 ∧ 55 ≤ abc.MSG_LEN.toNat + abc.KPAD.toNat) ∧
    abc.MSG_LEN.toNat + abc.KPAD.toNat < 56 := by decide
theorem witness_BloadStopsOutsideItsSpaces :
    abc.MSG_LEN.toNat + 1 + abc.KPAD.toNat + 8 < 64 * ({ abc with BI := 1 } : State).BI.toNat + 64 ∧
    (64 * abc.BI.toNat + 64 ≤ abc.MSG_LEN.toNat + 1 + abc.KPAD.toNat + 8 ∧
      ∃ j, j < 64 ∧ 64 * abc.BI.toNat + j < abc.MSG_LEN.toNat ∧
        ({ abc with MSG_CAP := ⟨2, by decide⟩ } : State).MSG_CAP.val ≤ 64 * abc.BI.toNat + j) := by
  exact ⟨by decide, by decide, 2, by decide⟩
theorem witness_BloadLoadsThePaddedBlock_other_memory :
    ∀ i, 64 * abc.BI.toNat ≤ i → i < 64 * abc.BI.toNat + 64 → i < abc.MSG_LEN.toNat →
      msgByte { abc with MSG := [(0, 0x61), (1, 0x62), (2, 0x63), (3, 0xff)] } i = msgByte abc i := by
  intro i _ _ h
  have h' : i < 3 := h
  interval_cases i <;> rfl
theorem witness_PaddedMessageIsPadOfTheMessage : abc.MSG_LEN.toNat < 2 ^ 61 ∧ abc.LBITS.toNat = 8 * abc.MSG_LEN.toNat ∧
    abc.KPAD.toNat = padCount abc.LBITS.toNat ∧ abc.BI.toNat < (abc.MSG_LEN.toNat + 8) / 64 + 1 := by decide

/-! ### Witnesses: the Compressor and the macro-operations -/

theorem witness_WloadLoadsABigEndianWord : ((0 : Fin 64).val = (0#4).toNat ∧ (0 : Fin 64).val = 4 * (0#4).toNat ∧
      (1 : Fin 64).val = 4 * (0#4).toNat + 1 ∧ (2 : Fin 64).val = 4 * (0#4).toNat + 2 ∧
      (3 : Fin 64).val = 4 * (0#4).toNat + 3) ∧
    ((15 : Fin 64).val = (15#4).toNat ∧ (60 : Fin 64).val = 4 * (15#4).toNat ∧ (61 : Fin 64).val = 4 * (15#4).toNat + 1 ∧
      (62 : Fin 64).val = 4 * (15#4).toNat + 2 ∧ (63 : Fin 64).val = 4 * (15#4).toNat + 3) ∧
    (16 : Fin 64).val ≠ (15#4).toNat := by decide
theorem witness_WexpExpandsOneWord : 16 ≤ (16#6).toNat ∧ ((16 : Fin 64).val = (16#6).toNat ∧
      (14 : Fin 64).val = (16#6).toNat - 2 ∧ (9 : Fin 64).val = (16#6).toNat - 7 ∧
      (1 : Fin 64).val = (16#6).toNat - 15 ∧ (0 : Fin 64).val = (16#6).toNat - 16) ∧
    (15 : Fin 64).val ≠ (16#6).toNat ∧ (63#6).toNat = 63 ∧ (62#6).toNat ≠ 63 := by decide
theorem witness_RoundRewritesTheWorkingVariables : (63 : Fin 64).val = (63#6).toNat ∧
    0xc67178f2 = (blank.v.h.toNat + (bsig1 blank.v.e).toNat + (ch blank.v.e blank.v.f blank.v.g).toNat + (K 63).toNat +
      (blank.W.get 63).toNat) % 2 ^ 32 ∧
    0 = ((bsig0 blank.v.a).toNat + (maj blank.v.a blank.v.b blank.v.c).toNat) % 2 ^ 32 ∧
    (63#6).toNat = 63 ∧ (62#6).toNat ≠ 63 := by decide +kernel
theorem witness_HmixAccumulatesTheHashState :
    [blank.v.a, blank.v.b, blank.v.c, blank.v.d, blank.v.e, blank.v.f, blank.v.g, blank.v.h][(7 : Fin 8).val]? = some 0 ∧
    abc.BI.toNat + 1 < 2 ^ 56 ∧ abc.BI.toNat + 1 = abc.NB.toNat ∧
    abc.BI.toNat + 1 ≠ ({ abc with NB := 2 } : State).NB.toNat := by decide
theorem witness_DoutSerialisesTheHashState : (31 : Fin 32).val = 4 * (7 : Fin 8).val + (3 : Fin 4).val := by decide
theorem witness_BlockStepsApplyTheCompressionFunction : ({ abc with PHASE := .bload } : State).inputs = [] ∧
    ({ abc with PHASE := .bload } : State).PHASE = .bload ∧
    64 * abc.BI.toNat + 64 ≤ abc.MSG_LEN.toNat + 1 + abc.KPAD.toNat + 8 ∧ abc.MSG_LEN.toNat ≤ abc.MSG_CAP.val := by decide
theorem witness_PadPreparesThePaddedMessage : 2 ^ 61 ≤ ({ blank with MSG_LEN := 0x2000000000000000 } : State).MSG_LEN.toNat ∧
    ({ blank with MSG_LEN := 0x1fffffffffffffff } : State).MSG_LEN.toNat < 2 ^ 61 := by decide
theorem witness_ParseCountsTheBlocks : ({ blank with PLEN := 63 } : State).PLEN.toNat % 64 ≠ 0 ∧
    blank.PLEN.toNat % 64 = 0 := by decide
theorem witness_CompressFoldsTheBlocks : abc.BI.toNat ≤ abc.NB.toNat ∧
    64 * abc.NB.toNat ≤ abc.MSG_LEN.toNat + 1 + abc.KPAD.toNat + 8 ∧ abc.MSG_LEN.toNat ≤ abc.MSG_CAP.val := by decide
theorem witness_Sha256ComputesTheDigest : 2 ^ 61 ≤ ({ blank with MSG_LEN := 0x2000000000000000 } : State).MSG_LEN.toNat ∧
    (({ blank with MSG_LEN := 64 } : State).MSG_LEN.toNat < 2 ^ 61 ∧
      ({ blank with MSG_LEN := 64 } : State).MSG_LEN.toNat ≤ blank.MSG_CAP.val) := by decide
theorem witness_ControllerRunsTheExpansionOfSha256 : ({ abc with PHASE := .lenchk } : State).inputs = [] ∧
    ({ abc with PHASE := .lenchk } : State).PHASE = .lenchk ∧ abc.MSG_LEN.toNat < 2 ^ 61 ∧
    abc.MSG_LEN.toNat ≤ abc.MSG_CAP.val := by decide

/-! ### Witnesses: START, the host and the whole machine -/

theorem witness_StartBeginsAnInvocationOrIsIgnored :
    (blank.PHASE = .idle ∨ blank.PHASE = .done ∨ blank.PHASE = .error) ∧
    (({ blank with PHASE := .lenchk } : State).PHASE ≠ .idle ∧ ({ blank with PHASE := .lenchk } : State).PHASE ≠ .done ∧
      ({ blank with PHASE := .lenchk } : State).PHASE ≠ .error) := by decide
theorem witness_WaitingPhasesChangeNothing : blank.inputs = [] ∧
    (blank.PHASE = .idle ∨ blank.PHASE = .done ∨ blank.PHASE = .error) := by decide

/-- `blank` meets the machine's invariant. -/
theorem blank_invariant : StateInv blank := by
  refine ⟨⟨?_, ?_⟩, rfl, trivial⟩
  · exact List.Pairwise.nil
  · intro c hc
    cases hc

theorem witness_StatusShowsPhaseAndErrorCode : StateInv blank ∧
    ({ blank with inputs := [.host .readStatus] } : State).inputs = .host .readStatus :: [] ∧
    ({ blank with inputs := [.host (.writeStatus 1)] } : State).inputs = .host (.writeStatus 1) :: [] :=
  ⟨blank_invariant, rfl, rfl⟩
theorem witness_HostReadsOfCtrlAndDigest :
    ({ blank with inputs := [.host .readCtrl] } : State).inputs = .host .readCtrl :: [] ∧
    (({ blank with PHASE := .done, inputs := [.host (.readDigest 31)] } : State).inputs = .host (.readDigest 31) :: [] ∧
      ({ blank with PHASE := .done, inputs := [.host (.readDigest 31)] } : State).PHASE = .done) := by decide
theorem witness_HostAccessesOfMsgLen :
    (({ blank with inputs := [.host (.writeMsgLen 3)] } : State).inputs = .host (.writeMsgLen 3) :: [] ∧
      (status { blank with inputs := [.host (.writeMsgLen 3)] }).getLsbD 0 = false) ∧
    (status { blank with PHASE := .dout, inputs := [.host (.writeMsgLen 3)] }).getLsbD 0 = true ∧
    ({ blank with inputs := [.host .readMsgLen] } : State).inputs = .host .readMsgLen :: [] ∧
    ({ blank with inputs := [.host (.writeDigest 0 1)] } : State).inputs = .host (.writeDigest 0 1) :: [] := by decide
theorem witness_HostMovesWhileBusyDisturbNothing :
    (status { abc with PHASE := .round, inputs := [.host (.writeMsg 3 9)] }).getLsbD 0 = true ∧
    HostMove.writeMsg 3 9 ≠ .reset ∧ 2 < abc.MSG_LEN.toNat ∧
    after (step { abc with PHASE := .round, inputs := [.host (.writeMsg 3 9)] }) (fun t => decide (t.inputs = [])) = true := by
  decide +kernel
theorem witness_HostMessageWrites :
    ({ abc with inputs := [.host (.writeMsg 2 7)] } : State).inputs = .host (.writeMsg 2 7) :: [] ∧
    (2 < abc.MSG_CAP.val ∧ (status abc).getLsbD 0 = false) ∧
    (3 < abc.MSG_CAP.val ∧ (status { abc with PHASE := .bload }).getLsbD 0 = true ∧ abc.MSG_LEN.toNat ≤ 3) ∧
    (2 < abc.MSG_CAP.val ∧ (status { abc with PHASE := .bload }).getLsbD 0 = true ∧ 2 < abc.MSG_LEN.toNat) ∧
    abc.MSG_CAP.val ≤ 64 := by decide
theorem witness_ResetEventReturnsToIdle :
    ({ abc with PHASE := .round, inputs := [.host .reset] } : State).inputs = .host .reset :: [] := by decide
theorem witness_RaisingWritesOnlyTheErrorRegisters : Instr.lenchk ≠ .pad ∧ Instr.lenchk ≠ .parse ∧
    Instr.lenchk ≠ .compress ∧ Instr.lenchk ≠ .sha256 ∧ blank.PHASE ≠ .error ∧
    after (exec .lenchk { blank with MSG_LEN := 0x2000000000000000 }) (fun t => decide (t.PHASE = .error)) = true ∧
    after (exec .padlen { blank with MSG_LEN := 1 }) (fun t => decide (t.PHASE = .error)) = true ∧
    after (exec .parsechk { blank with PLEN := 1 }) (fun t => decide (t.PHASE = .error)) = true := by decide
theorem witness_OnlyTheListedOperationsWriteARegister : Instr.hmix ≠ .pad ∧ Instr.hmix ≠ .parse ∧ Instr.hmix ≠ .compress ∧
    Instr.hmix ≠ .sha256 ∧ after (exec .hinit blank) (fun t => decide (t.H ≠ blank.H)) = true ∧
    after (exec .vinit { blank with H := H0 }) (fun t => decide (t.v ≠ blank.v)) = true ∧
    after (exec (.wload 0) { blank with BLK := Vector.replicate 64 1 }) (fun t => decide (t.W ≠ blank.W)) = true ∧
    after (exec .bload abc) (fun t => decide (t.BLK ≠ abc.BLK)) = true ∧
    after (exec .dout { blank with H := H0 }) (fun t => decide (t.DIGEST ≠ blank.DIGEST)) = true ∧
    after (exec .lenchk { blank with MSG_LEN := 1 }) (fun t => decide (t.LBITS ≠ blank.LBITS)) = true ∧
    after (exec .padlen blank) (fun t => decide (t.KPAD ≠ blank.KPAD)) = true ∧
    after (exec .parsechk abc) (fun t => decide (t.NB = abc.NB)) = true ∧
    after (exec .hmix blank) (fun t => decide (t.BI ≠ blank.BI)) = true ∧
    after (exec (.round 5) blank) (fun t => decide (t.T ≠ blank.T)) = true ∧
    after (exec .lenchk { blank with MSG_LEN := 0x2000000000000000 }) (fun t => decide (t.ERRCODE ≠ blank.ERRCODE)) = true ∧
    after (exec .dout blank) (fun t => decide (t.PHASE ≠ blank.PHASE ∧ t.MSG_LEN = blank.MSG_LEN)) = true := by
  decide +kernel
theorem witness_EngineNeverWritesTheMessage : after (exec .hmix abc) (fun t => decide (t.MSG = abc.MSG)) = true := by
  decide +kernel
theorem witness_PhaseTransitions : blank.inputs = [] ∧ after (step blank) (fun t => decide (t.PHASE = .idle)) = true ∧
    after (step { blank with PHASE := .round, T := 63 }) (fun t => decide (t.PHASE = .hmix)) = true ∧
    after (step { blank with PHASE := .wload, T := 15 }) (fun t => decide (t.PHASE = .wexp)) = true ∧
    (0 : Int) = ((448 - (({ blank with LBITS := 440 } : State).LBITS.toNat : Int) - 8) % 512) / 8 ∧
    after (step { blank with PHASE := .padlen, MSG_LEN := 55, LBITS := 440 }) (fun t => decide (t.PHASE = .parsechk)) = true ∧
    after (step { blank with PHASE := .padlen, MSG_LEN := 56, LBITS := 440 }) (fun t => decide (t.PHASE = .error)) = true ∧
    ({ blank with BI := 0xfffffffffffffe } : State).BI.toNat + 1 < 2 ^ 56 ∧
    after (step { blank with PHASE := .hmix, BI := 0xfffffffffffffe, NB := 0xffffffffffffff })
      (fun t => decide (t.PHASE = .dout)) = true := by decide +kernel
theorem witness_EveryStepKeepsTheInvariant : StateInv blank ∧ step blank = .next blank := ⟨blank_invariant, rfl⟩
theorem witness_EngineNeverGetsStuck : StateInv blank ∧ messageInRange blank ∧ blank.inputs = [] :=
  ⟨blank_invariant, .inl (by decide), rfl⟩
theorem witness_InvocationComputesSha256 :
    ({ abc with inputs := [.host (.writeCtrl 0x01#8)] } : State).inputs = [.host (.writeCtrl 0x01#8)] ∧
    (abc.PHASE = .idle ∨ abc.PHASE = .done ∨ abc.PHASE = .error) ∧ abc.MSG_LEN.toNat < 2 ^ 61 ∧
    abc.MSG_LEN.toNat ≤ abc.MSG_CAP.val ∧ 135 < 5 + 131 * ((abc.MSG_LEN.toNat + 8) / 64 + 1) := by decide
theorem witness_OverlongInvocationEndsInOverflow :
    ({ blank with MSG_LEN := 0x2000000000000000, inputs := [.host (.writeCtrl 0x01#8)] } : State).inputs =
      [.host (.writeCtrl 0x01#8)] ∧ (blank.PHASE = .idle ∨ blank.PHASE = .done ∨ blank.PHASE = .error) ∧
    2 ^ 61 ≤ ({ blank with MSG_LEN := 0x2000000000000000 } : State).MSG_LEN.toNat := by decide
theorem witness_InvocationsAreDeterministic :
    ({ abc with inputs := [.host (.writeCtrl 0x01#8)] } : State).inputs = [.host (.writeCtrl 0x01#8)] ∧
    ({ abc with T := 9, PHASE := .done, inputs := [.host (.writeCtrl 0x01#8)] } : State).inputs =
      [.host (.writeCtrl 0x01#8)] ∧
    (abc.PHASE = .idle ∨ abc.PHASE = .done ∨ abc.PHASE = .error) ∧
    (({ abc with T := 9, PHASE := .done } : State).PHASE = .idle ∨ ({ abc with T := 9, PHASE := .done } : State).PHASE = .done ∨
      ({ abc with T := 9, PHASE := .done } : State).PHASE = .error) ∧
    (∀ i, i < abc.MSG_LEN.toNat → msgByte abc i = msgByte { abc with T := 9, PHASE := .done } i) ∧ messageInRange abc :=
  ⟨rfl, rfl, by decide, by decide, fun _ _ => rfl, .inl (by decide)⟩

end Sys2Proof.Tests
end

section
/-! SUPPORT. The flags of STATUS by phase, the host moves that read and write it, and the proof of O40 from them. -/

namespace Sys2Proof.Machine

/-! ### The fields of STATUS (10_state.md R36, R38) -/

theorem doneFlag_iff (s : State) : doneFlag s = true ↔ s.PHASE = .done := by simp [doneFlag]

theorem errFlag_iff (s : State) : errFlag s = true ↔ s.PHASE = .error := by simp [errFlag]

theorem status_bit1 (s : State) : (status s).getLsbD 1 = doneFlag s := by
  rw [status, BitVec.getLsbD_append, BitVec.getLsbD_append]
  simp

theorem status_bit2 (s : State) : (status s).getLsbD 2 = errFlag s := by
  rw [status, BitVec.getLsbD_append, BitVec.getLsbD_append, BitVec.getLsbD_append]
  simp

theorem status_bit3 (s : State) : (status s).getLsbD 3 = false := by
  rw [status, BitVec.getLsbD_append, BitVec.getLsbD_append, BitVec.getLsbD_append, BitVec.getLsbD_append]
  simp

/-- Bits 7:4 of STATUS are ERRCODE under two zero bits. -/
theorem status_div_sixteen (s : State) : (status s).toNat / 16 = s.ERRCODE.code.toNat := by
  have he := (errFlag s).toNat_lt
  have hd := (doneFlag s).toNat_lt
  have hb := (busy s).toNat_lt
  rw [status_toNat]
  omega

/-- Bits 2:0 of STATUS are ERR, DONE and BUSY. -/
theorem status_mod_eight (s : State) :
    (status s).toNat % 8 = 4 * (errFlag s).toNat + 2 * (doneFlag s).toNat + (busy s).toNat := by
  have he := (errFlag s).toNat_lt
  have hd := (doneFlag s).toNat_lt
  have hb := (busy s).toNat_lt
  rw [status_toNat]
  omega

/-- The phases outside the codes 1 to 11 (10_state.md R35, R36). -/
theorem not_busy_iff (s : State) : busy s = false ↔
    s.PHASE = .idle ∨ s.PHASE = .done ∨ s.PHASE = .error ∨ s.PHASE = .reservedE ∨ s.PHASE = .reservedF := by
  unfold busy
  cases s.PHASE <;> decide

/-- The three flags by phase: ERROR, DONE and the phases of an invocation shut each other out. -/
theorem status_flags (s : State) : (status s).toNat % 8 =
    if s.PHASE = .error then 4 else if s.PHASE = .done then 2 else (busy s).toNat := by
  rw [status_mod_eight]
  by_cases he : s.PHASE = .error
  · have hb : busy s = false := (not_busy_iff s).2 (.inr (.inr (.inl he)))
    simp [errFlag, doneFlag, he, hb]
  · by_cases hd : s.PHASE = .done
    · have hb : busy s = false := (not_busy_iff s).2 (.inr (.inl hd))
      simp [errFlag, doneFlag, hd, hb]
    · simp [errFlag, doneFlag, he, hd]

/-- At most one of the three flags is set. -/
theorem status_flags_exclusive (s : State) :
    (status s).toNat % 8 = 0 ∨ (status s).toNat % 8 = 1 ∨ (status s).toNat % 8 = 2 ∨ (status s).toNat % 8 = 4 := by
  have hb := (busy s).toNat_lt
  rw [status_flags]
  split_ifs <;> omega

/-- The phases that show no flag: IDLE and the reserved ones. -/
theorem status_no_flag_iff (s : State) : (status s).toNat % 8 = 0 ↔
    s.PHASE = .idle ∨ s.PHASE = .reservedE ∨ s.PHASE = .reservedF := by
  rw [status_flags]
  by_cases he : s.PHASE = .error
  · simp [he]
  · by_cases hd : s.PHASE = .done
    · simp [hd]
    · simp [he, hd, not_busy_iff]

/-- The invariant shuts out the reserved phases (30_encoding.md R102). -/
theorem StateInv.phase_not_reserved {s : State} (h : StateInv s) :
    ¬ (s.PHASE = .reservedE ∨ s.PHASE = .reservedF) := by
  obtain ⟨_, _, hphase⟩ := h
  rintro (he | hf)
  · simp [phaseInvariant, he] at hphase
  · simp [phaseInvariant, hf] at hphase

theorem StateInv.status_no_flag_iff {s : State} (h : StateInv s) :
    (status s).toNat % 8 = 0 ↔ s.PHASE = .idle := by
  rw [Machine.status_no_flag_iff, or_iff_left h.phase_not_reserved]

/-! ### Moves of the host -/

/-- A step with a host move pending is that move, on the state without it. -/
theorem step_of_host {s : State} {m : HostMove} {rest : List Input} (h : s.inputs = .host m :: rest) :
    step s = hostMove m (takeInput s rest) := by
  simp only [step, h]

/-- STATUS is a function of PHASE and ERRCODE, so the pending inputs do not show in it. -/
@[simp] theorem status_takeInput (s : State) (rest : List Input) : status (takeInput s rest) = status s := rfl

theorem step_readStatus {s : State} {rest : List Input} (h : s.inputs = .host .readStatus :: rest) :
    step s = .next { s with inputs := rest, reads := .status (status s) :: s.reads } := by
  rw [step_of_host h, hostMove, status_takeInput]
  rfl

theorem step_writeStatus {s : State} {v : BitVec 8} {rest : List Input}
    (h : s.inputs = .host (.writeStatus v) :: rest) : step s = .next { s with inputs := rest } := by
  rw [step_of_host h]
  rfl

/-- Settles O40: each flag is the test of PHASE it is computed from, STATUS as a number has the flags in its lower and
ERRCODE in its upper four bits, and the invariant has no phase but IDLE that shows no flag. -/
theorem statusShowsPhaseAndErrorCode : Obligations.StatusShowsPhaseAndErrorCode := by
  intro s
  refine ⟨?busy, ?done, ?err, status_bit3 s, ?errcode, status_flags_exclusive s, fun h => h.status_no_flag_iff,
    ?reset, fun _ => step_readStatus, fun _ _ => step_writeStatus⟩
  case busy => rw [status_bit0, busy_iff]
  case done => rw [status_bit1, doneFlag_iff]
  case err => rw [status_bit2, errFlag_iff]
  case errcode =>
    rw [status_div_sixteen]
    cases s.ERRCODE <;> rfl
  case reset => rfl

end Sys2Proof.Machine
end

section
/-! SUPPORT. The word functions as sums, bits and bytes, and the proofs of O9 to O14 from them. -/

namespace Sys2Proof.Machine

/-! ### Sums (40_word_functions.md R120) -/

/-- `add32` is the sum in the commutative ring of words, so order and grouping are the library's. -/
theorem add32_eq_sum (xs : List Word) : add32 xs = xs.sum := by
  induction xs with
  | nil => rfl
  | cons x xs ih => rw [add32_cons, List.sum_cons, ih]

/-- Reducing after every partial sum is reducing once at the end. -/
theorem add32_toNat (xs : List Word) : (add32 xs).toNat = (xs.map BitVec.toNat).sum % 2 ^ 32 := by
  induction xs with
  | nil => rfl
  | cons x xs ih => rw [add32_cons, BitVec.toNat_add, ih, Nat.add_mod_mod, List.map_cons, List.sum_cons]

theorem add32_perm {xs ys : List Word} (h : xs.Perm ys) : add32 xs = add32 ys := by
  rw [add32_eq_sum, add32_eq_sum, h.sum_eq]

theorem add32_append (xs ys : List Word) : add32 (xs ++ ys) = add32 [add32 xs, add32 ys] := by
  simp only [add32_eq_sum, List.sum_append, List.sum_cons, List.sum_nil, add_zero]

/-- Settles O9: `add32` is the ring sum of the words. -/
theorem add32IsTheSumModulo : Obligations.Add32IsTheSumModulo :=
  ⟨add32_toNat, fun _ _ => add32_perm, add32_append⟩

/-! ### Rotation and shift (40_word_functions.md R121, R122) -/

/-- Bit `i` comes from the right shift while `i + n < 32`, and from the left shift where it wraps. -/
theorem rotr_getLsbD {n i : Nat} (x : Word) (hn : n ≤ 31) (hi : i < 32) :
    (rotr x n).getLsbD i = x.getLsbD ((i + n) % 32) := by
  rw [rotr, BitVec.getLsbD_or, BitVec.getLsbD_ushiftRight, BitVec.getLsbD_shiftLeft]
  by_cases hwrap : i + n < 32
  · have hlow : i < 32 - n := by omega
    rw [Nat.mod_eq_of_lt hwrap, Nat.add_comm]
    simp [hlow]
  · have hhigh : ¬ i < 32 - n := by omega
    have hindex : (i + n) % 32 = i - (32 - n) := by omega
    have hout : x.getLsbD (n + i) = false := BitVec.getLsbD_of_ge x _ (by omega)
    simp [hi, hhigh, hindex, hout]

/-- Adding `n` modulo `m` to the indices below `m` rotates their list. -/
theorem range_rotate (m n : Nat) : (List.range m).rotate n = (List.range m).map fun i => (i + n) % m :=
  List.ext_getElem (by simp) fun i _ _ => by simp [List.getElem_rotate]

/-- A rotation permutes the bits, so it keeps the number of one bits. -/
theorem rotr_countP {n : Nat} (x : Word) (hn : n ≤ 31) :
    (List.range 32).countP (rotr x n).getLsbD = (List.range 32).countP x.getLsbD := by
  calc (List.range 32).countP (rotr x n).getLsbD
      = (List.range 32).countP (x.getLsbD ∘ fun i => (i + n) % 32) :=
        List.countP_congr fun i hi => by rw [rotr_getLsbD x hn (List.mem_range.1 hi), Function.comp]
    _ = ((List.range 32).rotate n).countP x.getLsbD := by rw [range_rotate, List.countP_map]
    _ = (List.range 32).countP x.getLsbD := (List.rotate_perm _ n).countP_eq _

theorem shr_toNat (x : Word) (n : Nat) : (shr x n).toNat = x.toNat / 2 ^ n := by
  rw [shr, BitVec.toNat_ushiftRight, Nat.shiftRight_eq_div_pow]

/-- A shift brings in 0 where the rotation would wrap. -/
theorem shr_getLsbD (x : Word) (n i : Nat) : (shr x n).getLsbD i = (decide (i + n < 32) && x.getLsbD (i + n)) := by
  rw [shr, BitVec.getLsbD_ushiftRight, Nat.add_comm]
  by_cases hin : i + n < 32
  · simp [hin]
  · simp [hin, BitVec.getLsbD_of_ge x _ (Nat.le_of_not_lt hin)]

/-- Settles O10: a rotation is the index map `i ↦ (i + n) mod 32`, which permutes the indices. -/
theorem rotateMovesBitsAndShiftDivides : Obligations.RotateMovesBitsAndShiftDivides :=
  fun x n _ hn => ⟨fun _ hi => rotr_getLsbD x hn hi, rotr_countP x hn, shr_toNat x n⟩

/-! ### The bitwise functions (40_word_functions.md R124 to R129) -/

theorem ch_getLsbD {i : Nat} (x y z : Word) (hi : i < 32) :
    (ch x y z).getLsbD i = if x.getLsbD i then y.getLsbD i else z.getLsbD i := by
  simp only [ch, BitVec.getLsbD_xor, BitVec.getLsbD_and, BitVec.getLsbD_not, hi]
  cases x.getLsbD i <;> simp

theorem maj_getLsbD (x y z : Word) (i : Nat) : (maj x y z).getLsbD i =
    decide (2 ≤ (x.getLsbD i).toNat + (y.getLsbD i).toNat + (z.getLsbD i).toNat) := by
  simp only [maj, BitVec.getLsbD_xor, BitVec.getLsbD_and]
  generalize x.getLsbD i = a, y.getLsbD i = b, z.getLsbD i = c
  revert a b c
  decide

/-- Settles O11: both functions act on each bit position alone. -/
theorem chSelectsAndMajVotes : Obligations.ChSelectsAndMajVotes :=
  fun x y z i hi => ⟨ch_getLsbD x y z hi, maj_getLsbD x y z i⟩

/-- Settles O12: the exclusive or of the bits of each term, by `rotr_getLsbD` and `shr_getLsbD`. -/
theorem sigmaBits : Obligations.SigmaBits := by
  intro x i hi
  have hrot (n : Nat) (hn : n ≤ 31) : (rotr x n).getLsbD i = x.getLsbD ((i + n) % 32) := rotr_getLsbD x hn hi
  refine ⟨?bsig0, ?bsig1, ?ssig0, ?ssig1⟩
  case bsig0 => simp only [bsig0, BitVec.getLsbD_xor, hrot, Nat.reduceLeDiff]
  case bsig1 => simp only [bsig1, BitVec.getLsbD_xor, hrot, Nat.reduceLeDiff]
  case ssig0 => simp only [ssig0, BitVec.getLsbD_xor, hrot, shr_getLsbD, Nat.reduceLeDiff]
  case ssig1 => simp only [ssig1, BitVec.getLsbD_xor, hrot, shr_getLsbD, Nat.reduceLeDiff]

/-! ### Big-endian bytes (40_word_functions.md R130 to R132) -/

theorem be64_toNat (b0 b1 b2 b3 b4 b5 b6 b7 : Byte) : (be64 b0 b1 b2 b3 b4 b5 b6 b7).toNat =
    b0.toNat * 2 ^ 56 + b1.toNat * 2 ^ 48 + b2.toNat * 2 ^ 40 + b3.toNat * 2 ^ 32 +
    b4.toNat * 2 ^ 24 + b5.toNat * 2 ^ 16 + b6.toNat * 2 ^ 8 + b7.toNat := by
  simp only [be64, append_toNat]
  omega

theorem bytesBe32_eq_map (x : Word) : bytesBe32 x = (List.range 4).map (byteBe32 x) := rfl

theorem bytesBe64_eq_map (x : BitVec 64) : bytesBe64 x = (List.range 8).map (byteBe64 x) := rfl

theorem bytesBe32_getElem? {j : Nat} (x : Word) (hj : j < 4) : (bytesBe32 x)[j]? = some (byteBe32 x j) := by
  simp [bytesBe32_eq_map, hj]

theorem bytesBe64_getElem? {j : Nat} (x : BitVec 64) (hj : j < 8) : (bytesBe64 x)[j]? = some (byteBe64 x j) := by
  simp [bytesBe64_eq_map, hj]

/-- Each byte of the word four bytes spell is the digit of its place in base 256. -/
theorem bytesBe32_be32 (b0 b1 b2 b3 : Byte) : bytesBe32 (be32 b0 b1 b2 b3) = [b0, b1, b2, b3] := by
  have h0 := b0.isLt
  have h1 := b1.isLt
  have h2 := b2.isLt
  have h3 := b3.isLt
  simp only [bytesBe32, List.cons.injEq, ← BitVec.toNat_inj, byteBe32_toNat, be32_toNat, and_true]
  omega

/-- A word is the number its four digits in base 256 spell. -/
theorem be32_byteBe32 (x : Word) : be32 (byteBe32 x 0) (byteBe32 x 1) (byteBe32 x 2) (byteBe32 x 3) = x := by
  have hx := x.isLt
  apply BitVec.eq_of_toNat_eq
  simp only [be32_toNat, byteBe32_toNat]
  omega

/-- The same for a 64-bit number and its eight digits. -/
theorem be64_byteBe64 (x : BitVec 64) : be64 (byteBe64 x 0) (byteBe64 x 1) (byteBe64 x 2) (byteBe64 x 3) (byteBe64 x 4)
    (byteBe64 x 5) (byteBe64 x 6) (byteBe64 x 7) = x := by
  have hx := x.isLt
  apply BitVec.eq_of_toNat_eq
  simp only [be64_toNat, byteBe64_toNat]
  omega

/-- Settles O13: bytes are the digits of a number in base 256, the lowest index most significant. -/
theorem bigEndianNumbersAndWordBytes : Obligations.BigEndianNumbersAndWordBytes := by
  refine ⟨fun b0 b1 b2 b3 => ⟨be32_toNat b0 b1 b2 b3, bytesBe32_be32 b0 b1 b2 b3⟩, be64_toNat, fun x => ?_⟩
  exact ⟨be32_byteBe32 x, rfl, fun j hj => ⟨byteBe32_toNat x j, bytesBe32_getElem? x hj⟩⟩

/-- Settles O14: the eight digits in base 256, which spell the number again. -/
theorem bigEndianLengthRoundTrip : Obligations.BigEndianLengthRoundTrip := fun x =>
  ⟨bytesBe64_length x, fun j hj => ⟨byteBe64_toNat x j, bytesBe64_getElem? x hj⟩, be64_byteBe64 x⟩

end Sys2Proof.Machine
end

section
/-! SUPPORT. The padding count and the padded length in the forms of 41_padder.md, and the proofs of O16, O17, O19 and
O20 from them. -/

namespace Sys2Proof.Machine

/-! ### The padding count (41_padder.md R143, R144) -/

/-- The expression of R143 determines the count. -/
theorem eq_padCount {k l : Nat} (h : (k : Int) = ((448 - (l : Int) - 8) % 512) / 8) : k = padCount l := by
  rw [← padCount_int] at h
  exact Int.ofNat.inj h

/-- `8 * L` is a multiple of 8, so the expression of R143 is reduced modulo 64 once it is divided by 8. -/
theorem padCount_eight_mul_int (L : Nat) : (padCount (8 * L) : Int) = (55 - (L : Int)) % 64 := by
  rw [padCount_int]
  omega

/-- Settles O16: the count is `(55 - L) mod 64`, and as a natural number `(119 - L mod 64) mod 64`. -/
theorem paddingCountForms : Obligations.PaddingCountForms := by
  intro L
  have hcount := padCount_eight_mul L
  refine ⟨?bits, ?exact, ?lowBits, padCount_eight_mul_int L, Nat.le_of_lt_succ (padCount_lt _), ?oneBlock, ?twoBlocks⟩
  case bits => exact padCount_int (8 * L)
  case exact => omega
  case lowBits =>
    rw [padCount_eight_mul_int]
    omega
  case oneBlock => omega
  case twoBlocks => omega

/-! ### The padded length (41_padder.md R147) -/

/-- The value of R147 (b) for the Padded Message of the contract. -/
theorem padded_length_eq (m : List Byte) : (Contract.padded m).length = 64 * ((m.length + 8) / 64 + 1) := by
  rw [padded_length, paddedLength_eq]

/-- The minimality of R147 (b): no multiple of 64 lies between `L + 9` and the padded length. -/
theorem padded_length_le {m : List Byte} {n : Nat} (hn : n % 64 = 0) (hle : m.length + 9 ≤ n) :
    (Contract.padded m).length ≤ n := by
  rw [padded_length_eq]
  omega

/-- R147 (d): the number of Blocks of the Padded Message. -/
theorem padded_length_div (m : List Byte) : (Contract.padded m).length / 64 = (m.length + 8) / 64 + 1 := by
  rw [padded_length_eq, Nat.mul_div_cancel_left _ (by decide)]

/-- Settles O17: every property is read off the padded length `64 * ((L + 8) div 64 + 1)`. -/
theorem paddedLengthProperties : Obligations.PaddedLengthProperties := by
  intro m _
  have hlen := padded_length_eq m
  have hblocks := padded_length_div m
  refine ⟨padded_length m, ?multiple, hlen, ?fits, ?positive, fun n => padded_length_le, hblocks, ?oneMore, ?twoMore⟩
  case multiple => rw [hlen, Nat.mul_mod_right]
  case fits => omega
  case positive => omega
  case oneMore => omega
  case twoMore => omega

/-! ### LENCHK and PADLEN (41_padder.md R148, R149) -/

/-- Settles O19: LENCHK is one of two record updates, and three shifted places lose no bit below `2^61`. -/
theorem lenchkChecksTheLength : Obligations.LenchkChecksTheLength := by
  refine ⟨decode_packUop_code .lenchk, fun s => ⟨execLenchk_overflow, fun hlen => ⟨_, execLenchk_ok hlen, ?_⟩⟩⟩
  have hbits : (s.MSG_LEN <<< 3).toNat = s.MSG_LEN.toNat * 8 := by
    rw [lengthBits_toNat hlen, Nat.mul_comm]
  exact ⟨hbits, rfl, rfl, fun _ => rfl⟩

/-- KPAD has the six bits the count needs. -/
theorem ofNat_padCount_toNat (l : Nat) : (BitVec.ofNat 6 (padCount l)).toNat = padCount l :=
  Nat.mod_eq_of_lt (padCount_lt l)

/-- After LENCHK the count is that of R144. -/
theorem lengthChecked.padlenCount_int {s : State} (h : lengthChecked s) :
    (padlenCount s : Int) = (55 - (msgLength s : Int)) % 64 := by
  obtain ⟨_, hbits⟩ := h
  rw [padlenCount, hbits, padCount_eight_mul_int]

/-- After LENCHK the postcondition holds (R147 (a)). -/
theorem lengthChecked.padlenLength_mod {s : State} (h : lengthChecked s) : padlenLength s % 64 = 0 := by
  obtain ⟨_, hbits⟩ := h
  rw [padlenLength_eq hbits, Nat.mul_mod_right]

/-- After LENCHK the padded length has the 62 bits of PLEN (10_state.md R31). -/
theorem lengthChecked.padlenLength_lt {s : State} (h : lengthChecked s) : padlenLength s < 2 ^ 62 := by
  obtain ⟨hlen, hbits⟩ := h
  rw [padlenLength_eq hbits]
  simp only [msgLength] at hlen
  omega

/-- Settles O20: the given `k` and `plen` are the ones PADLEN computes, and after LENCHK `plen` is a multiple of 64. -/
theorem padlenComputesThePadding : Obligations.PadlenComputesThePadding := by
  refine ⟨decode_packUop_code .padlen, ?_⟩
  rintro s k plen hk rfl
  obtain rfl : k = padlenCount s := eq_padCount hk
  refine ⟨execPadlen_error, fun hmod => ⟨_, execPadlen_ok hmod, ?kpad, ?plen, rfl, rfl, fun _ => rfl⟩,
    fun hlen hbits => ?afterLenchk⟩
  case kpad => exact ofNat_padCount_toNat _
  case plen => exact Nat.mod_eq_of_lt
  case afterLenchk =>
    have hchecked : lengthChecked s := ⟨hlen, hbits⟩
    exact ⟨hchecked.padlenLength_mod, hchecked.padlenLength_lt, hchecked.padlenCount_int⟩

end Sys2Proof.Machine
end

section
/-! SUPPORT. The bytes of a block by the four parts of PM, and the proofs of O21 and O22 from them. -/

namespace Sys2Proof.Machine

/-! ### PARSECHK (42_block_parser.md R163) -/

/-- Settles O21: PARSECHK is one of two record updates, and dropping the low six bits of PLEN divides it by 64. -/
theorem parsechkCountsTheBlocks : Obligations.ParsechkCountsTheBlocks :=
  ⟨decode_packUop_code .parsechk, fun s => ⟨execParsechk_error, fun hmod =>
    ⟨_, execParsechk_ok hmod, blocks_toNat s.PLEN, rfl, rfl, rfl, fun _ => rfl⟩⟩⟩

/-! ### BLOAD (42_block_parser.md R164) -/

/-- Behind the zero bytes PM holds the digits of LBITS in base 256, the most significant first. -/
theorem PM_length_toNat {s : State} {i : Nat} (h : s.MSG_LEN.toNat + s.KPAD.toNat < i) :
    (PM s i).toNat = s.LBITS.toNat / 2 ^ (56 - 8 * (i - (s.MSG_LEN.toNat + 1 + s.KPAD.toNat))) % 256 := by
  rw [PM_length h, byteBe64_toNat]

/-- BLOAD reads MSG at the Message bytes of its block only: a memory that agrees on them gives the same answer. -/
theorem execBload_with_MSG {s : State} {m : Memory}
    (h : 64 * s.BI.toNat + 64 ≤ s.MSG_LEN.toNat + 1 + s.KPAD.toNat + 8)
    (hc : ∀ j, j < 64 → 64 * s.BI.toNat + j < s.MSG_LEN.toNat → 64 * s.BI.toNat + j < s.MSG_CAP.val)
    (hm : ∀ i, 64 * s.BI.toNat ≤ i → i < 64 * s.BI.toNat + 64 → i < s.MSG_LEN.toNat →
      msgByte { s with MSG := m } i = msgByte s i) :
    execBload { s with MSG := m } = .next { s with MSG := m, BLK := paddedBlock s, T := 0, PHASE := .wload } := by
  have hblock : paddedBlock { s with MSG := m } = paddedBlock s := paddedBlock_congr rfl rfl rfl rfl hm
  rw [execBload_ok (s := { s with MSG := m }) h hc, hblock]

/-- Settles O22: BLOAD is one record update, byte `j` of its block is `PM(64 * BI + j)`, and R145 gives PM part by
part. -/
theorem bloadLoadsThePaddedBlock : Obligations.BloadLoadsThePaddedBlock := by
  refine ⟨decode_packUop_code .bload, fun s hpadded hcap => ⟨_, execBload_ok hpadded hcap, rfl, rfl, ?bytes, rfl,
    fun _ => rfl, fun m => execBload_with_MSG hpadded hcap⟩⟩
  case bytes =>
    rintro j i rfl
    rw [paddedBlock_get]
    exact ⟨PM_message, PM_marker, PM_zero, PM_length_toNat⟩

end Sys2Proof.Machine
end

section
/-! SUPPORT. The words WLOAD and WEXP write as numbers, the index `T` counts, and the proofs of O25 and O26 from them. -/

namespace Sys2Proof.Machine

/-- A write keeps every other word, the index compared as a number. -/
theorem vector_get_set_of_val_ne {α : Type} {n : Nat} (v : Vector α n) {i j : Fin n} (x : α) (h : j.val ≠ i.val) :
    (v.set i x).get j = v.get j :=
  vector_get_set_ne v x fun hij => h (congrArg Fin.val hij)

/-! ### WLOAD (43_compressor_schedule.md R171) -/

theorem blockWord_toNat (s : State) (t : BitVec 4) : (blockWord s t).toNat =
    (s.BLK.get (blkIndex t 0)).toNat * 2 ^ 24 + (s.BLK.get (blkIndex t 1)).toNat * 2 ^ 16 +
      (s.BLK.get (blkIndex t 2)).toNat * 2 ^ 8 + (s.BLK.get (blkIndex t 3)).toNat :=
  be32_toNat _ _ _ _

/-- Settles O25: WLOAD is one record update, it writes the big-endian value of its four bytes at index `t`, and only
`t = 15` leaves the phase. -/
theorem wloadLoadsABigEndianWord : Obligations.WloadLoadsABigEndianWord := by
  refine ⟨fun t => Laws.DecodeEncode.wload t rfl _ rfl, fun s t => ⟨_, execWload_eq t s, ?word, ?others,
    wload_next_toNat t, if_congr (eq_fifteen_iff t) rfl rfl, rfl, fun _ => rfl⟩⟩
  case word =>
    intro u hu b0 b1 b2 b3 h0 h1 h2 h3
    obtain rfl : b0 = blkIndex t 0 := Fin.ext h0
    obtain rfl : b1 = blkIndex t 1 := Fin.ext h1
    obtain rfl : b2 = blkIndex t 2 := Fin.ext h2
    obtain rfl : b3 = blkIndex t 3 := Fin.ext h3
    obtain rfl : u = wordIndex (t.setWidth 6) := Fin.ext (hu.trans (wordIndex_wload_val t).symm)
    rw [vector_get_set_self, blockWord_toNat]
  case others =>
    intro u hu
    rw [← wordIndex_wload_val t] at hu
    exact vector_get_set_of_val_ne _ _ hu

/-! ### WEXP (43_compressor_schedule.md R172) -/

/-- One reduction modulo `2^32` at the end of the four taps' sum (40_word_functions.md R120). -/
theorem expandedWord_toNat (s : State) (t : BitVec 6) : (expandedWord s t).toNat =
    ((ssig0 (s.W.get (tapIndex t 15))).toNat + (ssig1 (s.W.get (tapIndex t 2))).toNat +
      (s.W.get (tapIndex t 7)).toNat + (s.W.get (tapIndex t 16)).toNat) % 2 ^ 32 := by
  rw [expandedWord, add32_toNat]
  simp only [List.map_cons, List.map_nil, List.sum_cons, List.sum_nil, Nat.add_zero, Nat.add_assoc]

/-- Below 63 the next index has six bits. -/
theorem index_add_one_toNat {t : BitVec 6} (h : t.toNat ≠ 63) : (t + 1).toNat = t.toNat + 1 := by
  have hlt := t.isLt
  exact toNat_add_one t (by omega)

/-- Settles O26: WEXP is one record update, it writes the sum of its four taps at index `t`, and only `t = 63` stops the
count. -/
theorem wexpExpandsOneWord : Obligations.WexpExpandsOneWord := by
  refine ⟨fun t _ => decode_packUop_code .wexp t, fun s t ht => ⟨_, execWexp_eq ht s, ?word, fun u =>
    vector_get_set_of_val_ne _ _, ?last, ?next, rfl, fun _ => rfl⟩⟩
  case word =>
    intro u u2 u7 u15 u16 hu h2 h7 h15 h16
    obtain rfl : u2 = tapIndex t 2 := Fin.ext h2
    obtain rfl : u7 = tapIndex t 7 := Fin.ext h7
    obtain rfl : u15 = tapIndex t 15 := Fin.ext h15
    obtain rfl : u16 = tapIndex t 16 := Fin.ext h16
    obtain rfl : u = wordIndex t := Fin.ext hu
    rw [vector_get_set_self, expandedWord_toNat]
  case last =>
    intro h
    have hlast : t = 63 := (eq_sixtyThree_iff t).2 h
    exact ⟨if_pos hlast, if_pos hlast⟩
  case next =>
    intro h
    have hlast : t ≠ 63 := mt (eq_sixtyThree_iff t).1 h
    refine ⟨?_, if_neg hlast⟩
    rw [if_neg hlast, index_add_one_toNat h]

end Sys2Proof.Machine
end

section
/-! SUPPORT. The working variables as a list, the sums of a round as numbers, and the proofs of O27 and O28 from them. -/

namespace Sys2Proof.Machine

/-! ### VINIT (44_compressor_round.md R180) -/

/-- The eight loads take the words of the hash state in order. -/
theorem ofHash_toList (H : Vector Word 8) :
    [(Vars.ofHash H).a, (Vars.ofHash H).b, (Vars.ofHash H).c, (Vars.ofHash H).d,
      (Vars.ofHash H).e, (Vars.ofHash H).f, (Vars.ofHash H).g, (Vars.ofHash H).h] = H.toList := by
  have hH : H.toList = List.ofFn H.get := by
    rw [← Vector.toList_ofFn]
    exact congrArg Vector.toList (vector_ext_get fun i => (vector_get_ofFn _ i).symm)
  rw [hH]
  rfl

/-- Settles O27: VINIT is one record update, and its eight loads are the list of `H`. -/
theorem vinitLoadsTheWorkingVariables : Obligations.VinitLoadsTheWorkingVariables :=
  ⟨decode_packUop_code .vinit, fun s => ⟨_, rfl, ofHash_toList s.H, rfl, rfl, rfl, fun _ => rfl⟩⟩

/-! ### ROUND (44_compressor_round.md R181, R182) -/

theorem add32_pair_toNat (x y : Word) : (add32 [x, y]).toNat = (x.toNat + y.toNat) % 2 ^ 32 := by
  rw [add32_cons, add32_cons, add32_nil, BitVec.add_zero, BitVec.toNat_add]

/-- `T1` of a round with the constant `k` and the schedule word `w`, a value inside the step. -/
def roundT1 (v : Vars) (k w : Word) : Word := add32 [v.h, bsig1 v.e, ch v.e v.f v.g, k, w]

/-- `T2` of a round, a value inside the step. -/
def roundT2 (v : Vars) : Word := add32 [bsig0 v.a, maj v.a v.b v.c]

theorem roundVars_eq (v : Vars) (k w : Word) : roundVars v k w =
    { a := add32 [roundT1 v k w, roundT2 v], b := v.a, c := v.b, d := v.c
      e := add32 [v.d, roundT1 v k w], f := v.e, g := v.f, h := v.g } := rfl

/-- One reduction modulo `2^32` at the end of the five-term sum (40_word_functions.md R120). -/
theorem roundT1_toNat (v : Vars) (k w : Word) : (roundT1 v k w).toNat =
    (v.h.toNat + (bsig1 v.e).toNat + (ch v.e v.f v.g).toNat + k.toNat + w.toNat) % 2 ^ 32 := by
  rw [roundT1, add32_toNat]
  simp only [List.map_cons, List.map_nil, List.sum_cons, List.sum_nil, Nat.add_zero, Nat.add_assoc]

theorem roundT2_toNat (v : Vars) :
    (roundT2 v).toNat = ((bsig0 v.a).toNat + (maj v.a v.b v.c).toNat) % 2 ^ 32 :=
  add32_pair_toNat _ _

/-- The two assignments of a round that add; the other six move a word. -/
theorem roundVars_a_toNat (v : Vars) (k w : Word) :
    (roundVars v k w).a.toNat = ((roundT1 v k w).toNat + (roundT2 v).toNat) % 2 ^ 32 := by
  rw [roundVars_eq, add32_pair_toNat]

theorem roundVars_e_toNat (v : Vars) (k w : Word) :
    (roundVars v k w).e.toNat = (v.d.toNat + (roundT1 v k w).toNat) % 2 ^ 32 := by
  rw [roundVars_eq, add32_pair_toNat]

/-- The last index stays in `T`, and the operation passes on from phase `p` to `q`. -/
theorem index_last {t : BitVec 6} (T : BitVec 6) {p q : Phase} (h : t.toNat = 63) :
    (if t = 63 then T else t + 1) = T ∧ (if t = 63 then q else p) = q :=
  have hlast : t = 63 := (eq_sixtyThree_iff t).2 h
  ⟨if_pos hlast, if_pos hlast⟩

/-- Any other index is counted up in `T`, and the phase stays `p`. -/
theorem index_next {t : BitVec 6} (T : BitVec 6) {p q : Phase} (h : t.toNat ≠ 63) :
    (if t = 63 then T else t + 1).toNat = t.toNat + 1 ∧ (if t = 63 then q else p) = p := by
  have hnext : t ≠ 63 := mt (eq_sixtyThree_iff t).1 h
  rw [if_neg hnext, if_neg hnext]
  exact ⟨index_add_one_toNat h, rfl⟩

/-- Settles O28: ROUND is one record update, the given `t1` and `t2` are the two sums it computes, and only `t = 63`
stops the count. -/
theorem roundRewritesTheWorkingVariables : Obligations.RoundRewritesTheWorkingVariables := by
  refine ⟨decode_packUop_code .round, ?_⟩
  intro s t u t1 t2 hu ht1 ht2
  obtain rfl : u = wordIndex t := Fin.ext hu
  obtain rfl : t1 = (roundT1 s.v (K (wordIndex t)) (s.W.get (wordIndex t))).toNat := ht1.trans (roundT1_toNat _ _ _).symm
  obtain rfl : t2 = (roundT2 s.v).toNat := ht2.trans (roundT2_toNat _).symm
  refine ⟨_, execRound_eq t s, roundVars_a_toNat _ _ _, rfl, rfl, rfl, roundVars_e_toNat _ _ _, rfl, rfl, rfl,
    index_last s.T, index_next s.T, rfl, fun _ => rfl⟩

end Sys2Proof.Machine
end

section
/-! SUPPORT. The words of the hash state as numbers, and the proofs of O29, O30 and O31 from them. -/

namespace Sys2Proof.Machine

/-! ### HINIT (45_compressor_state.md R190) -/

/-- Settles O29: HINIT is one record update, and its eight words are the table `H0`. -/
theorem hinitLoadsTheInitialVector : Obligations.HinitLoadsTheInitialVector :=
  ⟨decode_packUop_code .hinit, fun _ => ⟨_, rfl, rfl, rfl, rfl, fun _ => rfl⟩⟩

/-! ### HMIX (45_compressor_state.md R191) -/

/-- The working variables listed from `a` to `h` are `v[0]` to `v[7]` (10_state.md R23). -/
theorem Vars.getElem?_list (v : Vars) (i : Fin 8) :
    [v.a, v.b, v.c, v.d, v.e, v.f, v.g, v.h][i.val]? = some (v.get i) := by
  fin_cases i <;> rfl

/-- Each word of the hash state is summed by itself modulo `2^32`. -/
theorem mixHash_get_toNat (H : Vector Word 8) (v : Vars) (i : Fin 8) :
    ((mixHash H v).get i).toNat = ((H.get i).toNat + (v.get i).toNat) % 2 ^ 32 := by
  rw [mixHash_get, BitVec.toNat_add]

/-- While BI does not wrap (10_state.md R33), the test for the last block is one of numbers. -/
theorem blockCount_succ_eq_iff {bi nb : BitVec 56} (h : bi.toNat + 1 < 2 ^ 56) :
    bi + 1 = nb ↔ bi.toNat + 1 = nb.toNat := by
  rw [← BitVec.toNat_inj, toNat_add_one bi h]

/-- Settles O30: HMIX is one record update, it sums word by word, and BI counts up to NB. -/
theorem hmixAccumulatesTheHashState : Obligations.HmixAccumulatesTheHashState := by
  refine ⟨decode_packUop_code .hmix, fun s => ⟨_, rfl, ?words, ?count, rfl, fun _ => rfl⟩⟩
  case words =>
    intro i x hx
    obtain rfl : s.v.get i = x := Option.some.inj ((Vars.getElem?_list s.v i).symm.trans hx)
    exact mixHash_get_toNat s.H s.v i
  case count =>
    intro hbi
    exact ⟨toNat_add_one s.BI hbi, fun h => if_pos ((blockCount_succ_eq_iff hbi).2 h),
      fun h => if_neg (mt (blockCount_succ_eq_iff hbi).1 h)⟩

/-! ### DOUT (45_compressor_state.md R192) -/

/-- Byte `4i + j` of the Digest is digit `j` of `H[i]` in base 256, the most significant first (30_encoding.md R94). -/
theorem digestBytes_get_toNat (H : Vector Word 8) {i : Fin 8} {j : Fin 4} {n : Fin 32}
    (hn : n.val = 4 * i.val + j.val) :
    ((digestBytes H).get n).toNat = (H.get i).toNat / 2 ^ (24 - 8 * j.val) % 256 := by
  have hword : (⟨n.val / 4, by omega⟩ : Fin 8) = i := Fin.ext (by simp only; omega)
  have hbyte : n.val % 4 = j.val := by omega
  rw [digestBytes_get, hword, hbyte, byteBe32_toNat]

/-- Settles O31: DOUT is one record update, and its bytes are the base 256 digits of the words in order. -/
theorem doutSerialisesTheHashState : Obligations.DoutSerialisesTheHashState :=
  ⟨decode_packUop_code .dout, fun s =>
    ⟨_, rfl, fun _ _ _ hn => digestBytes_get_toNat s.H hn, rfl, rfl, fun _ => rfl⟩⟩

end Sys2Proof.Machine
end

section
/-! SUPPORT. The controller's 131 steps over one block: the words of the Message Schedule, the rounds, the state after
each of them, and the proof of O32 from them. -/

namespace Sys2Proof.Machine

/-! ### The Message Schedule word by word (43_compressor_schedule.md R170) -/

namespace Contract

/-- The first sixteen words are those of the Block. -/
theorem schedule_getD_of_lt (B : Block) {t : Nat} (h : t < 16) : (schedule B).getD t 0 =
    be32 (B.get ⟨4 * t, by omega⟩) (B.get ⟨4 * t + 1, by omega⟩) (B.get ⟨4 * t + 2, by omega⟩)
      (B.get ⟨4 * t + 3, by omega⟩) := by
  rw [schedule_eq, scheduleUpTo_getD_of_le B (Nat.zero_le 48) (by omega)]
  exact firstWords_getD B h

/-- Every later word comes from its taps, which are words made before it. -/
theorem schedule_getD_of_le (B : Block) {t : Nat} (h : 16 ≤ t) (ht : t < 64) :
    (schedule B).getD t 0 = nextWord (schedule B) t := by
  obtain ⟨n, rfl⟩ := Nat.exists_eq_add_of_le h
  have htap : ∀ i, i < 16 + n → (scheduleUpTo B 48).getD i 0 = (scheduleUpTo B n).getD i 0 :=
    fun i hi => scheduleUpTo_getD_of_le B (by omega) hi
  rw [schedule_eq, scheduleUpTo_getD_of_le B (show n + 1 ≤ 48 by omega) (by omega), scheduleUpTo_getD_last]
  simp only [nextWord]
  rw [htap _ (by omega), htap _ (by omega), htap _ (by omega), htap _ (by omega)]

end Contract

/-- The register `W` with its first `n` words those of the Message Schedule of `B`, the others as they were. -/
@[irreducible] def scheduledWords (B : Contract.Block) (W : Vector Word 64) (n : Nat) : Vector Word 64 :=
  Vector.ofFn fun i => if i.val < n then (Contract.schedule B).getD i.val 0 else W.get i

theorem scheduledWords_get_of_lt (B : Contract.Block) (W : Vector Word 64) {n : Nat} {i : Fin 64} (h : i.val < n) :
    (scheduledWords B W n).get i = (Contract.schedule B).getD i.val 0 := by
  rw [scheduledWords, vector_get_ofFn, if_pos h]

theorem scheduledWords_get_of_le (B : Contract.Block) (W : Vector Word 64) {n : Nat} {i : Fin 64} (h : n ≤ i.val) :
    (scheduledWords B W n).get i = W.get i := by
  rw [scheduledWords, vector_get_ofFn, if_neg (Nat.not_lt.2 h)]

@[simp] theorem scheduledWords_zero (B : Contract.Block) (W : Vector Word 64) : scheduledWords B W 0 = W :=
  vector_ext_get fun _ => scheduledWords_get_of_le B W (Nat.zero_le _)

/-- All 64 words are the Message Schedule. -/
theorem scheduledWords_toList (B : Contract.Block) (W : Vector Word 64) :
    (scheduledWords B W 64).toList = Contract.schedule B :=
  Contract.toList_eq_schedule fun i => by rw [scheduledWords_get_of_lt B W i.isLt, Contract.schedule_eq]

/-- Writing the word of index `n` makes one word more. -/
theorem scheduledWords_set (B : Contract.Block) (W : Vector Word 64) {n : Nat} {i : Fin 64} (hi : i.val = n) :
    (scheduledWords B W n).set i ((Contract.schedule B).getD n 0) = scheduledWords B W (n + 1) := by
  apply vector_ext_get
  intro j
  rcases lt_trichotomy j.val n with hlt | heq | hgt
  · rw [vector_get_set_of_val_ne _ _ (by omega), scheduledWords_get_of_lt B W hlt,
      scheduledWords_get_of_lt B W (by omega)]
  · obtain rfl : j = i := Fin.ext (heq.trans hi.symm)
    rw [vector_get_set_self, scheduledWords_get_of_lt B W (by omega), heq]
  · rw [vector_get_set_of_val_ne _ _ (by omega), scheduledWords_get_of_le B W (by omega),
      scheduledWords_get_of_le B W (by omega)]

/-- WLOAD's word is a word of the schedule of BLK. -/
theorem blockWord_eq_schedule (s : State) (t : BitVec 4) :
    blockWord s t = (Contract.schedule s.BLK).getD t.toNat 0 :=
  (Contract.schedule_getD_of_lt s.BLK t.isLt).symm

/-- WEXP's word is the next word of the schedule when the words before it are. -/
theorem expandedWord_eq_schedule {s : State} {B : Contract.Block} {W : Vector Word 64} {t : BitVec 6}
    (ht : 16 ≤ t.toNat) (hW : s.W = scheduledWords B W t.toNat) :
    expandedWord s t = (Contract.schedule B).getD t.toNat 0 := by
  have htap : ∀ n, 0 < n → n ≤ 16 → s.W.get (tapIndex t n) = (Contract.schedule B).getD (t.toNat - n) 0 := by
    intro n hpos hle
    rw [hW, scheduledWords_get_of_lt B W (by rw [tapIndex_val]; omega), tapIndex_val]
  rw [Contract.schedule_getD_of_le B ht t.isLt, expandedWord, Contract.nextWord, htap 15 (by decide) (by decide),
    htap 2 (by decide) (by decide), htap 7 (by decide) (by decide), htap 16 (by decide) (by decide)]

/-! ### The rounds one by one (45_compressor_state.md R194) -/

/-- The working variables after the first `n` rounds on the words `W`, beginning with the hash state `H`. -/
@[irreducible] def roundsUpTo (H : Vector Word 8) (W : Vector Word 64) (n : Nat) : Vars :=
  ((List.finRange 64).take n).foldl (fun v t => roundVars v (K t) (W.get t)) (Vars.ofHash H)

theorem roundsUpTo_zero (H : Vector Word 8) (W : Vector Word 64) : roundsUpTo H W 0 = Vars.ofHash H := by
  rw [roundsUpTo]
  rfl

theorem roundsUpTo_succ (H : Vector Word 8) (W : Vector Word 64) (t : Fin 64) :
    roundsUpTo H W (t.val + 1) = roundVars (roundsUpTo H W t.val) (K t) (W.get t) := by
  have hlt : t.val < (List.finRange 64).length := by simp
  rw [roundsUpTo, List.take_succ_eq_append_getElem hlt, List.foldl_append, List.getElem_finRange, roundsUpTo]
  rfl

/-- All 64 rounds on the Message Schedule are the rounds of the Block. -/
theorem roundsUpTo_schedule (H : Vector Word 8) (B : Contract.Block) (W : Vector Word 64) :
    roundsUpTo H (scheduledWords B W 64) 64 = Contract.rounds H B := by
  have hword : ∀ t : Fin 64, (scheduledWords B W 64).get t = (Contract.schedule B).getD t.val 0 :=
    fun t => scheduledWords_get_of_lt B W t.isLt
  rw [roundsUpTo, List.take_of_length_le (by simp), Contract.rounds]
  simp only [hword]

/-! ### The index and the phase of one block -/

/-- `T` after `n` of the 64 schedule words or rounds: it stops at 63 (10_state.md R34). -/
def indexAfter (n : Nat) : BitVec 6 := BitVec.ofNat 6 (min n 63)

/-- `PHASE` after `n` of the 64 schedule words (43_compressor_schedule.md R171, R172). -/
def schedulePhase (n : Nat) : Phase := if n < 16 then .wload else if n < 64 then .wexp else .vinit

/-- `PHASE` after `n` of the 64 rounds (44_compressor_round.md R181). -/
def roundPhase (n : Nat) : Phase := if n < 64 then .round else .hmix

theorem indexAfter_zero : indexAfter 0 = 0 := by rw [indexAfter]; rfl

theorem indexAfter_toNat {n : Nat} (h : n < 64) : (indexAfter n).toNat = n := by
  rw [indexAfter, BitVec.toNat_ofNat]
  omega

/-- What WLOAD leaves in `T` and `PHASE`. -/
theorem wload_next (t : BitVec 4) : (if t = 15 then 16 else t.setWidth 6 + 1) = indexAfter (t.toNat + 1) ∧
    (if t = 15 then Phase.wexp else .wload) = schedulePhase (t.toNat + 1) := by
  revert t; decide +kernel

/-- What WEXP and ROUND leave in `T`. -/
theorem indexAfter_succ (t : BitVec 6) : (if t = 63 then indexAfter t.toNat else t + 1) = indexAfter (t.toNat + 1) := by
  revert t; decide +kernel

theorem wexp_nextPhase {t : BitVec 6} (ht : 16 ≤ t.toNat) :
    (if t = 63 then Phase.vinit else .wexp) = schedulePhase (t.toNat + 1) := by
  revert t; decide +kernel

theorem round_nextPhase (t : BitVec 6) : (if t = 63 then Phase.hmix else .round) = roundPhase (t.toNat + 1) := by
  revert t; decide +kernel

/-! ### The states of one block -/

/-- The state of a block that began with a BLOAD in `s`: `BLK` holds the block of PM, and of the other registers only
`W`, `v`, `T` and `PHASE` have been rewritten. -/
def blockState (s : State) (W : Vector Word 64) (v : Vars) (T : BitVec 6) (P : Phase) : State :=
  { s with BLK := paddedBlock s, W := W, v := v, T := T, PHASE := P }

/-- From a BLOAD in `s`, the state with `n` words of the Message Schedule made. -/
def schedulingState (s : State) (n : Nat) : State :=
  blockState s (scheduledWords (paddedBlock s) s.W n) s.v (indexAfter n) (schedulePhase n)

/-- From a BLOAD in `s`, the state with the Message Schedule made and `n` rounds done. -/
def roundState (s : State) (n : Nat) : State :=
  blockState s (scheduledWords (paddedBlock s) s.W 64) (roundsUpTo s.H (scheduledWords (paddedBlock s) s.W 64) n)
    (indexAfter n) (roundPhase n)

/-- From a BLOAD in `s`, the state after the block. -/
def blockEndState (s : State) : State :=
  { s with
    H := Contract.CB s.H (paddedBlock s)
    v := Contract.rounds s.H (paddedBlock s)
    W := scheduledWords (paddedBlock s) s.W 64
    BLK := paddedBlock s
    BI := s.BI + 1
    T := indexAfter 64
    PHASE := if s.BI + 1 = s.NB then .dout else .bload }

/-! ### The operations of one block, each from one of these states to the next -/

theorem execBload_schedulingState {s : State}
    (hpadded : 64 * s.BI.toNat + 64 ≤ s.MSG_LEN.toNat + 1 + s.KPAD.toNat + 8)
    (hcap : s.MSG_LEN.toNat ≤ s.MSG_CAP.val) : execBload s = .next (schedulingState s 0) := by
  rw [execBload_ok hpadded fun j _ hj => by omega, schedulingState, scheduledWords_zero, indexAfter_zero]
  rfl

section
variable (s : State) (W : Vector Word 64) (v : Vars) (T : BitVec 6) (P : Phase)

theorem blockState_inputs : (blockState s W v T P).inputs = s.inputs := rfl

theorem execWload_blockState (t : BitVec 4) : execWload t (blockState s W v T P) = .next (blockState s
    (W.set (wordIndex (t.setWidth 6)) ((Contract.schedule (paddedBlock s)).getD t.toNat 0)) v
    (if t = 15 then 16 else t.setWidth 6 + 1) (if t = 15 then .wexp else .wload)) := by
  rw [execWload_eq, blockWord_eq_schedule]
  rfl

theorem execWexp_blockState {t : BitVec 6} (ht : 16 ≤ t.toNat) : execWexp t (blockState s W v T P) =
    .next (blockState s (W.set (wordIndex t) (expandedWord (blockState s W v T P) t)) v
      (if t = 63 then T else t + 1) (if t = 63 then .vinit else .wexp)) := by
  rw [execWexp_eq ht]
  rfl

theorem execVinit_blockState : execVinit (blockState s W v T P) =
    .next (blockState s W (Vars.ofHash s.H) 0 .round) := rfl

theorem execRound_blockState (t : BitVec 6) : execRound t (blockState s W v T P) =
    .next (blockState s W (roundVars v (K (wordIndex t)) (W.get (wordIndex t)))
      (if t = 63 then T else t + 1) (if t = 63 then .hmix else .round)) := by
  rw [execRound_eq]
  rfl

theorem execHmix_blockState : execHmix (blockState s W v T P) =
    .next { s with
      H := mixHash s.H v, v := v, W := W, BLK := paddedBlock s, BI := s.BI + 1, T := T
      PHASE := if s.BI + 1 = s.NB then .dout else .bload } := rfl

end

theorem execWload_schedulingState (s : State) (t : BitVec 4) :
    execWload t (schedulingState s t.toNat) = .next (schedulingState s (t.toNat + 1)) := by
  obtain ⟨hT, hP⟩ := wload_next t
  rw [schedulingState, execWload_blockState, scheduledWords_set _ _ (wordIndex_wload_val t), hT, hP, schedulingState]

theorem execWexp_schedulingState (s : State) {t : BitVec 6} (ht : 16 ≤ t.toNat) :
    execWexp t (schedulingState s t.toNat) = .next (schedulingState s (t.toNat + 1)) := by
  rw [schedulingState, execWexp_blockState _ _ _ _ _ ht, expandedWord_eq_schedule ht rfl,
    scheduledWords_set _ _ (wordIndex_val t), indexAfter_succ, wexp_nextPhase ht, schedulingState]

theorem execVinit_schedulingState (s : State) : execVinit (schedulingState s 64) = .next (roundState s 0) := by
  rw [schedulingState, execVinit_blockState, roundState, roundsUpTo_zero, indexAfter_zero]
  rfl

theorem execRound_roundState (s : State) (t : BitVec 6) :
    execRound t (roundState s t.toNat) = .next (roundState s (t.toNat + 1)) := by
  rw [roundState, execRound_blockState, indexAfter_succ, round_nextPhase, roundState, ← wordIndex_val t,
    roundsUpTo_succ]

theorem execHmix_roundState (s : State) : execHmix (roundState s 64) = .next (blockEndState s) := by
  rw [roundState, execHmix_blockState, roundsUpTo_schedule, blockEndState, Contract.CB]

/-! ### The controller's steps over one block -/

/-- A run along a sequence of states, each the next one's predecessor. -/
theorem runTimes_of_path {f : State → Result} {S : Nat → State} {n : Nat}
    (h : ∀ i, i < n → f (S i) = .next (S (i + 1))) : runTimes f n (S 0) = .next (S n) := by
  induction n with
  | zero => rfl
  | succ n ih => rw [runTimes_succ, ih fun i hi => h i (by omega), chain_next, h n (by omega)]

section
variable {s : State} (hin : s.inputs = [])
include hin

theorem step_bload (hp : s.PHASE = .bload) : step s = execBload s := by
  simp only [step_of_no_input hin, engineStep_eq, hp]

theorem step_wload (hp : s.PHASE = .wload) (hT : s.T.toNat < 16) : step s = execWload (s.T.setWidth 4) s := by
  simp only [step_of_no_input hin, engineStep_eq, hp, if_pos hT]

theorem step_wexp (hp : s.PHASE = .wexp) : step s = execWexp s.T s := by
  simp only [step_of_no_input hin, engineStep_eq, hp]

theorem step_vinit (hp : s.PHASE = .vinit) : step s = execVinit s := by
  simp only [step_of_no_input hin, engineStep_eq, hp]

theorem step_round (hp : s.PHASE = .round) : step s = execRound s.T s := by
  simp only [step_of_no_input hin, engineStep_eq, hp]

theorem step_hmix (hp : s.PHASE = .hmix) : step s = execHmix s := by
  simp only [step_of_no_input hin, engineStep_eq, hp]

theorem schedulingState_inputs (n : Nat) : (schedulingState s n).inputs = [] := by
  rw [schedulingState, blockState_inputs, hin]

theorem roundState_inputs (n : Nat) : (roundState s n).inputs = [] := by
  rw [roundState, blockState_inputs, hin]

/-- One schedule word, WLOAD's or WEXP's. -/
theorem step_schedulingState {n : Nat} (hn : n < 64) :
    step (schedulingState s n) = .next (schedulingState s (n + 1)) := by
  have hT : (schedulingState s n).T.toNat = n := indexAfter_toNat hn
  by_cases h : n < 16
  · have hP : (schedulingState s n).PHASE = .wload := if_pos h
    have hT4 : ((schedulingState s n).T.setWidth 4).toNat = n := by
      rw [BitVec.toNat_setWidth, hT]
      omega
    have hexec := execWload_schedulingState s ((schedulingState s n).T.setWidth 4)
    rw [hT4] at hexec
    rw [step_wload (schedulingState_inputs hin n) hP (by omega), hexec]
  · have hP : (schedulingState s n).PHASE = .wexp := (if_neg h).trans (if_pos hn)
    have hexec := execWexp_schedulingState s (t := (schedulingState s n).T) (by omega)
    rw [hT] at hexec
    rw [step_wexp (schedulingState_inputs hin n) hP, hexec]

/-- One round. -/
theorem step_roundState {n : Nat} (hn : n < 64) : step (roundState s n) = .next (roundState s (n + 1)) := by
  have hP : (roundState s n).PHASE = .round := if_pos hn
  have hexec := execRound_roundState s (roundState s n).T
  rw [show (roundState s n).T.toNat = n from indexAfter_toNat hn] at hexec
  rw [step_round (roundState_inputs hin n) hP, hexec]

/-- The 131 steps of a block: BLOAD, 64 schedule words, VINIT, 64 rounds, HMIX (45_compressor_state.md R194). -/
theorem run_block (hp : s.PHASE = .bload)
    (hpadded : 64 * s.BI.toNat + 64 ≤ s.MSG_LEN.toNat + 1 + s.KPAD.toNat + 8)
    (hcap : s.MSG_LEN.toNat ≤ s.MSG_CAP.val) : runTimes step 131 s = .next (blockEndState s) := by
  have hbload : step s = .next (schedulingState s 0) :=
    (step_bload hin hp).trans (execBload_schedulingState hpadded hcap)
  have hschedule : runTimes step 64 (schedulingState s 0) = .next (schedulingState s 64) :=
    runTimes_of_path fun _ hi => step_schedulingState hin hi
  have hvinit : step (schedulingState s 64) = .next (roundState s 0) :=
    (step_vinit (schedulingState_inputs hin 64) rfl).trans (execVinit_schedulingState s)
  have hrounds : runTimes step 64 (roundState s 0) = .next (roundState s 64) :=
    runTimes_of_path fun _ hi => step_roundState hin hi
  have hhmix : step (roundState s 64) = .next (blockEndState s) :=
    (step_hmix (roundState_inputs hin 64) rfl).trans (execHmix_roundState s)
  rw [show 131 = 1 + (64 + (1 + (64 + 1))) from rfl, run_add, run_one, hbload, chain_next, run_add, hschedule,
    chain_next, run_add, run_one, hvinit, chain_next, run_add, hrounds, chain_next, run_one, hhmix]

end

/-- Settles O32: the steps of a block pass through the states with `n` schedule words and with `n` rounds, and end in
the state whose hash state is `CB`. -/
theorem blockStepsApplyTheCompressionFunction : Obligations.BlockStepsApplyTheCompressionFunction :=
  fun s hin hp hpadded hcap => ⟨blockEndState s, run_block hin hp hpadded hcap, rfl, rfl,
    scheduledWords_toList _ _, rfl, rfl, rfl⟩

end Sys2Proof.Machine
end

section
/-! SUPPORT. START and the host's accesses of MSG_LEN, and the proofs of O38 and O42 from them. -/

namespace Sys2Proof.Machine

/-! ### STATUS while an invocation runs and after it ended well (10_state.md R36) -/

/-- STATUS as a number: ERRCODE in the upper half, and below it the one flag the phase shows. -/
theorem status_toNat_of_phase (s : State) : (status s).toNat = 16 * s.ERRCODE.code.toNat +
    if s.PHASE = .error then 4 else if s.PHASE = .done then 2 else (busy s).toNat := by
  rw [← status_flags, status_mod_eight, status_toNat]
  omega

theorem errorCode_eq_none_iff (e : ErrorCode) : e = .none ↔ e.code.toNat = 0 := by cases e <;> decide

/-- STATUS reads 0x01 exactly while BUSY with no error recorded. -/
theorem status_eq_busy_iff (s : State) : status s = 0x01#8 ↔ busy s = true ∧ s.ERRCODE = .none := by
  rw [← BitVec.toNat_inj, status_toNat_of_phase, errorCode_eq_none_iff]
  by_cases hbusy : busy s = true
  · have hrunning : ¬ (s.PHASE = .error ∨ s.PHASE = .done) := by
      rintro (h | h) <;> simp [busy, h, Phase.code] at hbusy
    obtain ⟨herror, hdone⟩ := not_or.1 hrunning
    simp [hbusy, herror, hdone]
  · have hclear : busy s = false := Bool.eq_false_of_not_eq_true hbusy
    simp only [hclear, Bool.false_eq_true, false_and, iff_false]
    split_ifs <;> simp

/-- STATUS reads 0x02 in DONE with no error recorded. -/
theorem status_eq_done {s : State} (hphase : s.PHASE = .done) (hcode : s.ERRCODE = .none) : status s = 0x02#8 := by
  rw [← BitVec.toNat_inj, status_toNat_of_phase, hphase, hcode]
  rfl

/-! ### START (46_top_level.md R201) -/

/-- The state an accepted START leaves: the invocation begins at LENCHK, with DIGEST a free value (log 2). -/
def startedState (s : State) : State :=
  { s with PHASE := .lenchk, ERRCODE := .none, T := 0, DIGEST := Config.unspecDigest s.draws, draws := s.draws + 1 }

theorem execStart_eq_startedState {s : State} (h : s.PHASE = .idle ∨ s.PHASE = .done ∨ s.PHASE = .error) :
    execStart s = .next (startedState s) := execStart_accepted h

theorem status_startedState (s : State) : status (startedState s) = 0x01#8 :=
  (status_eq_busy_iff _).2 ⟨rfl, rfl⟩

/-- Settles O38: an accepted START is one record update, and START is ignored in the phases that do not accept it. -/
theorem startBeginsAnInvocationOrIsIgnored : Obligations.StartBeginsAnInvocationOrIsIgnored := by
  refine ⟨Laws.DecodeEncode.start rfl _ rfl, fun s => ⟨fun haccepts => ?accepted, fun hidle hdone herror => ?ignored⟩⟩
  case accepted =>
    exact ⟨startedState s, execStart_eq_startedState haccepts, rfl, rfl, rfl, status_startedState s, rfl, fun _ => rfl⟩
  case ignored =>
    exact execStart_ignored (by simp only [hidle, hdone, herror, or_self, not_false_eq_true])

/-! ### MSG_LEN and DIGEST at the host's port (46_top_level.md R206, R212) -/

theorem hostWriteMsgLen_stored {s : State} (v : BitVec 64) (h : busy s = false) :
    hostWriteMsgLen v s = .next { s with MSG_LEN := v } := by
  simp only [hostWriteMsgLen, h, Bool.false_eq_true, if_false]

theorem hostWriteMsgLen_ignored {s : State} (v : BitVec 64) (h : busy s = true) :
    hostWriteMsgLen v s = .next s := by
  simp only [hostWriteMsgLen, h, if_true]

/-- Settles O42: the write of MSG_LEN is decided by the flag STATUS shows in bit 0; the read and the write of DIGEST do
not look at the phase. -/
theorem hostAccessesOfMsgLen : Obligations.HostAccessesOfMsgLen := by
  intro s rest
  refine ⟨fun v hwrite => ?write, fun hread => ?read, fun i v hdigest => ?digest⟩
  case write =>
    rw [status_bit0, step_of_host hwrite]
    exact ⟨hostWriteMsgLen_stored (s := takeInput s rest) v, hostWriteMsgLen_ignored (s := takeInput s rest) v⟩
  case read =>
    rw [step_of_host hread]
    rfl
  case digest =>
    rw [step_of_host hdigest]
    rfl

end Sys2Proof.Machine
end

section
/-! SUPPORT. The stage contracts on a Message below `2^61` bytes, and the proof of O18 from them. -/

namespace Sys2Proof.Machine

namespace Contract

/-! ### PAD and PARSE (41_padder.md R140, 42_block_parser.md R160) -/

/-- The number of Blocks of the Padded Message (41_padder.md R147 (d)). -/
abbrev blockCount (m : List Byte) : Nat := (m.length + 8) / 64 + 1

/-- The first `n` Blocks of the Padded Message. -/
def firstBlocks (m : List Byte) (n : Nat) : List Block := (List.range n).map (block (padded m))

theorem firstBlocks_length (m : List Byte) (n : Nat) : (firstBlocks m n).length = n := by simp [firstBlocks]

theorem pad_overflow {m : List Byte} (h : 2 ^ 61 ≤ m.length) : pad m = .error .overflow := by
  rw [pad, if_pos (by omega)]

/-- The postcondition of PAD always holds (41_padder.md R147 (a)). -/
theorem pad_ok {m : List Byte} (h : m.length < 2 ^ 61) : pad m = .ok (padded m) := by
  rw [pad, if_neg (by omega), if_neg (by rw [padded_length_eq, Nat.mul_mod_right]; decide)]

/-- The precondition of PARSE holds of every Padded Message. -/
theorem parse_padded (m : List Byte) : parse (padded m) = .ok (firstBlocks m (blockCount m)) := by
  rw [parse, if_neg (by rw [padded_length_eq, Nat.mul_mod_right]; decide), padded_length_div]
  rfl

/-! ### COMPRESS and SHA256 (45_compressor_state.md R193, 46_top_level.md R200) -/

theorem compress_length (bs : List Block) : (compress bs).length = 32 := by
  rw [compress, serialise_length]

theorem sha256_overflow {m : List Byte} (h : 2 ^ 61 ≤ m.length) : sha256 m = .error .overflow := by
  rw [sha256, pad_overflow h]

theorem sha256_ok {m : List Byte} (h : m.length < 2 ^ 61) :
    sha256 m = .ok (compress (firstBlocks m (blockCount m))) := by
  rw [sha256, pad_ok h]
  simp only [parse_padded]

theorem sha256_empty : sha256 [] = .ok
    [0xe3, 0xb0, 0xc4, 0x42, 0x98, 0xfc, 0x1c, 0x14, 0x9a, 0xfb, 0xf4, 0xc8, 0x99, 0x6f, 0xb9, 0x24,
     0x27, 0xae, 0x41, 0xe4, 0x64, 0x9b, 0x93, 0x4c, 0xa4, 0x95, 0x99, 0x1b, 0x78, 0x52, 0xb8, 0x55] := by
  decide +kernel

theorem sha256_abc : sha256 [0x61, 0x62, 0x63] = .ok
    [0xba, 0x78, 0x16, 0xbf, 0x8f, 0x01, 0xcf, 0xea, 0x41, 0x41, 0x40, 0xde, 0x5d, 0xae, 0x22, 0x23,
     0xb0, 0x03, 0x61, 0xa3, 0x96, 0x17, 0x7a, 0x9c, 0xb4, 0x10, 0xff, 0x61, 0xf2, 0x00, 0x15, 0xad] := by
  decide +kernel

end Contract

open Contract in
/-- Settles O18: below `2^61` bytes PAD and PARSE succeed with the Blocks of the Padded Message; the two printed digests
are evaluated. -/
theorem sha256IsTotalWithFixedSize : Obligations.Sha256IsTotalWithFixedSize := by
  refine ⟨fun m => ⟨fun hlong => ⟨pad_overflow hlong, sha256_overflow hlong⟩, fun hlen => ?inRange⟩,
    sha256_empty, sha256_abc⟩
  case inRange =>
    exact ⟨padded m, firstBlocks m (blockCount m), pad_ok hlen, parse_padded m, sha256_ok hlen,
      firstBlocks_length _ _, compress_length _⟩

end Sys2Proof.Machine
end

section
/-! SUPPORT. The bytes and Blocks of PM as those of the Padded Message. -/

namespace Sys2Proof.Machine

/-! ### The bytes of the Padded Message (41_padder.md R140) -/

theorem message_getD {s : State} {i : Nat} (h : i < s.MSG_LEN.toNat) : (message s).getD i 0 = msgByte s i := by
  rw [List.getD_eq_getElem _ _ (by rwa [message_length])]
  simp [message]

/-- The Message is its length and its bytes below the length. -/
theorem message_congr {s t : State} (hlen : s.MSG_LEN = t.MSG_LEN)
    (hbytes : ∀ i, i < s.MSG_LEN.toNat → msgByte s i = msgByte t i) : message s = message t := by
  rw [message, message, msgLength, msgLength, ← hlen]
  exact List.map_congr_left fun i hi => hbytes i (List.mem_range.1 hi)

namespace Contract
variable (m : List Byte) {i : Nat}

theorem padded_getD_message (h : i < m.length) : (padded m).getD i 0 = m.getD i 0 := by
  rw [padded, List.append_assoc, List.append_assoc, List.getD_append _ _ _ _ h]

theorem padded_getD_marker : (padded m).getD m.length 0 = 0x80#8 := by
  rw [padded, List.append_assoc, List.append_assoc, List.getD_append_right _ _ _ _ (le_refl _), Nat.sub_self]
  rfl

theorem padded_getD_zero (h : m.length < i) (h' : i ≤ m.length + padCount (8 * m.length)) :
    (padded m).getD i 0 = 0x00#8 := by
  rw [padded, List.getD_append _ _ _ _ (by simp; omega), List.getD_append_right _ _ _ _ (by simp; omega),
    List.getD_replicate _ (by simp; omega)]

theorem padded_getD_length (h : m.length + padCount (8 * m.length) < i) :
    (padded m).getD i 0 = (bytesBe64 (BitVec.ofNat 64 (8 * m.length))).getD
      (i - (m.length + 1 + padCount (8 * m.length))) 0 := by
  have hlen : (m ++ [0x80#8] ++ List.replicate (padCount (8 * m.length)) 0x00#8).length =
      m.length + 1 + padCount (8 * m.length) := by
    rw [List.length_append, List.length_append, List.length_replicate, List.length_singleton]
  rw [padded, List.getD_append_right _ _ _ _ (by omega), hlen]

end Contract

theorem bytesBe64_getD {j : Nat} (x : BitVec 64) (hj : j < 8) : (bytesBe64 x).getD j 0 = byteBe64 x j := by
  rw [List.getD_eq_getElem?_getD, bytesBe64_getElem? x hj, Option.getD_some]

/-! ### PM after PADLEN (41_padder.md R150, 42_block_parser.md R162) -/

section
variable {s : State} (h : paddingComputed s)
include h

theorem paddingComputed.kpad_eq : s.KPAD.toNat = padCount (8 * s.MSG_LEN.toNat) := by
  obtain ⟨_, hkpad, _⟩ := h
  rw [hkpad, padCount_eight_mul]

theorem paddingComputed.lbits_eq : s.LBITS = BitVec.ofNat 64 (8 * s.MSG_LEN.toNat) := by
  obtain ⟨⟨_, hbits⟩, _⟩ := h
  rw [← hbits, BitVec.ofNat_toNat, BitVec.setWidth_eq]

/-- R147 (b) in terms of the registers. -/
theorem paddingComputed.padded_end : s.MSG_LEN.toNat + 1 + s.KPAD.toNat + 8 =
    64 * Contract.blockCount (message s) := by
  rw [h.kpad_eq, paddedLength_eq, Contract.blockCount, message_length]

/-- PM is the Padded Message of the contract, byte by byte, over the four parts of R145. -/
theorem paddingComputed.PM_eq {i : Nat} (hi : i < s.MSG_LEN.toNat + 1 + s.KPAD.toNat + 8) :
    PM s i = (Contract.padded (message s)).getD i 0 := by
  have hlen : (message s).length = s.MSG_LEN.toNat := message_length s
  have hk := h.kpad_eq
  rcases lt_trichotomy i s.MSG_LEN.toNat with hmsg | hmark | hpad
  · rw [PM_message hmsg, Contract.padded_getD_message _ (by omega), message_getD hmsg]
  · rw [PM_marker hmark, hmark, ← hlen, Contract.padded_getD_marker]
  · by_cases hzero : i ≤ s.MSG_LEN.toNat + s.KPAD.toNat
    · rw [PM_zero hpad hzero, Contract.padded_getD_zero _ (by omega) (by rw [hlen]; omega)]
    · rw [PM_length (by omega), Contract.padded_getD_length _ (by rw [hlen]; omega), hlen, ← hk, ← h.lbits_eq,
        bytesBe64_getD _ (by omega)]

theorem paddingComputed.paddedBlock_eq (hbi : s.BI.toNat < Contract.blockCount (message s)) :
    paddedBlock s = Contract.block (Contract.padded (message s)) s.BI.toNat := by
  have hend := h.padded_end
  apply vector_ext_get
  intro j
  rw [paddedBlock_get, Contract.block_get, h.PM_eq (by simp only [blockBase]; omega)]

end

end Sys2Proof.Machine
end

section
/-! SUPPORT. The controller's run from LENCHK to DOUT, block after block, as the fold of the contract. -/

namespace Sys2Proof.Machine

/-! ### The hash state after some of the Blocks (45_compressor_state.md R193) -/

namespace Contract

/-- The hash state after the first `n` Blocks of the Padded Message. -/
def hashAfter (m : List Byte) (n : Nat) : Vector Word 8 := (firstBlocks m n).foldl CB H0

theorem hashAfter_zero (m : List Byte) : hashAfter m 0 = H0 := rfl

theorem hashAfter_succ (m : List Byte) (n : Nat) :
    hashAfter m (n + 1) = CB (hashAfter m n) (block (padded m) n) := by
  rw [hashAfter, firstBlocks, List.range_succ, List.map_append, List.foldl_append]
  rfl

theorem compress_firstBlocks (m : List Byte) (n : Nat) : compress (firstBlocks m n) = serialise (hashAfter m n) := by
  rw [compress, hashAfter]

end Contract

/-- The bytes DOUT writes are those of the contract's serialisation. -/
theorem digestBytes_toList (H : Vector Word 8) : (digestBytes H).toList = Contract.serialise H := by
  rw [digestBytes, Vector.toList_ofFn]
  rfl

/-! ### What an invocation leaves unchanged -/

/-- `t` is `s` but for the registers that the operations of an invocation without an error write (10_state.md R21). -/
def InvocationFrame (s t : State) : Prop :=
  t = { s with H := t.H, v := t.v, W := t.W, BLK := t.BLK, DIGEST := t.DIGEST, LBITS := t.LBITS, KPAD := t.KPAD,
               PLEN := t.PLEN, NB := t.NB, BI := t.BI, T := t.T, PHASE := t.PHASE }

namespace InvocationFrame

theorem trans {s t u : State} (hst : InvocationFrame s t) (htu : InvocationFrame t u) : InvocationFrame s u := by
  rw [InvocationFrame] at hst htu ⊢
  conv_lhs => rw [htu, hst]

section
variable {s t : State} (h : InvocationFrame s t)
include h

theorem MSG_LEN_eq : t.MSG_LEN = s.MSG_LEN := by rw [h]

theorem MSG_CAP_eq : t.MSG_CAP = s.MSG_CAP := by rw [h]

theorem MSG_eq : t.MSG = s.MSG := by rw [h]

theorem ERRCODE_eq : t.ERRCODE = s.ERRCODE := by rw [h]

theorem inputs_eq : t.inputs = s.inputs := by rw [h]

theorem message_eq : message t = message s :=
  message_congr h.MSG_LEN_eq fun i _ => msgByte_congr h.MSG_eq i

end

end InvocationFrame

/-! ### The operations before the first block, each with what it establishes -/

theorem execLenchk_lengthChecked {s : State} (h : s.MSG_LEN.toNat < 2 ^ 61) :
    ∃ t, execLenchk s = .next t ∧ t.PHASE = .padlen ∧ lengthChecked t ∧ InvocationFrame s t :=
  ⟨_, execLenchk_ok h, rfl, ⟨h, lengthBits_toNat h⟩, rfl⟩

theorem execPadlen_paddingComputed {s : State} (h : lengthChecked s) :
    ∃ t, execPadlen s = .next t ∧ t.PHASE = .parsechk ∧ paddingComputed t ∧ InvocationFrame s t := by
  refine ⟨_, execPadlen_ok h.padlenLength_mod, rfl, ⟨h, ?kpad, ?plen⟩, rfl⟩
  case kpad =>
    obtain ⟨_, hbits⟩ := h
    rw [ofNat_padCount_toNat, hbits, padCount_eight_mul]
  case plen =>
    rw [ofNat_padCount_toNat]
    exact Nat.mod_eq_of_lt h.padlenLength_lt

theorem paddingComputed.plen_eq {s : State} (h : paddingComputed s) :
    s.PLEN.toNat = 64 * Contract.blockCount (message s) := by
  rw [← h.padded_end]
  obtain ⟨_, _, hplen⟩ := h
  exact hplen

theorem execParsechk_blocksCounted {s : State} (h : paddingComputed s) :
    ∃ t, execParsechk s = .next t ∧ t.PHASE = .hinit ∧ blocksCounted t ∧ t.BI = 0 ∧ InvocationFrame s t := by
  have hplen := h.plen_eq
  refine ⟨_, execParsechk_ok (by omega), rfl, ⟨h, ?_⟩, rfl, rfl⟩
  show 64 * (s.PLEN.extractLsb' 6 56).toNat = s.PLEN.toNat
  rw [blocks_toNat]
  omega

/-- NB is the number of Blocks of the Padded Message (R147 (d)). -/
theorem blocksCounted.nb_eq {s : State} (h : blocksCounted s) : s.NB.toNat = Contract.blockCount (message s) := by
  obtain ⟨hpadding, hnb⟩ := h
  have hplen := hpadding.plen_eq
  omega

/-! ### From one block to the next -/

/-- In an invocation that began in `s`, the state `t` with `n` Blocks compressed. -/
structure AfterBlocks (s : State) (n : Nat) (t : State) : Prop where
  frame : InvocationFrame s t
  counted : blocksCounted t
  index : t.BI.toNat = n
  phase : t.PHASE = if n = t.NB.toNat then .dout else .bload
  hash : t.H = Contract.hashAfter (message s) n

/-- There is always a first block, so HINIT is followed by its BLOAD. -/
theorem execHinit_afterBlocks {s : State} (h : blocksCounted s) (hbi : s.BI = 0) :
    ∃ t, execHinit s = .next t ∧ AfterBlocks s 0 t := by
  have hfirst : ¬ 0 = s.NB.toNat := by
    rw [h.nb_eq]
    exact (Nat.succ_ne_zero _).symm
  have hblock : ¬ s.BI = s.NB := fun heq => hfirst (by rw [← heq, hbi]; rfl)
  exact ⟨_, rfl, rfl, h, by rw [hbi]; rfl, (if_neg hblock).trans (if_neg hfirst).symm,
    (Contract.hashAfter_zero _).symm⟩

theorem AfterBlocks.of_frame {s t u : State} {n : Nat} (hframe : InvocationFrame s t) (h : AfterBlocks t n u) :
    AfterBlocks s n u :=
  ⟨hframe.trans h.frame, h.counted, h.index, h.phase, hframe.message_eq ▸ h.hash⟩

/-- The 131 steps of a block compress one Block more. -/
theorem AfterBlocks.run_next {s t : State} {n : Nat} (h : AfterBlocks s n t) (hin : s.inputs = [])
    (hcap : s.MSG_LEN.toNat ≤ s.MSG_CAP.val) (hn : n < Contract.blockCount (message s)) :
    ∃ u, runTimes step 131 t = .next u ∧ AfterBlocks s (n + 1) u := by
  obtain ⟨hframe, hcounted, hindex, hphase, hhash⟩ := h
  have ⟨hpadding, _⟩ := hcounted
  have hnb := hcounted.nb_eq
  have hend := hpadding.padded_end
  rw [hframe.message_eq] at hnb hend
  have hnowrap : t.BI.toNat + 1 < 2 ^ 56 := by have := t.NB.isLt; omega
  have hblock : paddedBlock t = Contract.block (Contract.padded (message s)) n := by
    rw [hpadding.paddedBlock_eq (by rw [hframe.message_eq]; omega), hframe.message_eq, hindex]
  refine ⟨blockEndState t, run_block (hframe.inputs_eq.trans hin) ?bload ?inPadded ?inCap,
    hframe.trans rfl, hcounted, ?index, ?phase, ?hash⟩
  case bload => rw [hphase, if_neg (by omega)]
  case inPadded => omega
  case inCap => rwa [hframe.MSG_LEN_eq, hframe.MSG_CAP_eq]
  case index => exact (toNat_add_one _ hnowrap).trans (congrArg (· + 1) hindex)
  case phase => exact if_congr ((blockCount_succ_eq_iff hnowrap).trans (by rw [hindex]; rfl)) rfl rfl
  case hash => rw [Contract.hashAfter_succ, ← hhash, ← hblock]; rfl

/-- The loop over the Blocks, `n` of them. -/
theorem AfterBlocks.run_blocks {s t : State} (h : AfterBlocks s 0 t) (hin : s.inputs = [])
    (hcap : s.MSG_LEN.toNat ≤ s.MSG_CAP.val) {n : Nat} (hn : n ≤ Contract.blockCount (message s)) :
    ∃ u, runTimes step (131 * n) t = .next u ∧ AfterBlocks s n u := by
  induction n with
  | zero => exact ⟨t, rfl, h⟩
  | succ n ih =>
    obtain ⟨u, hrun, hu⟩ := ih (by omega)
    obtain ⟨w, hblock, hw⟩ := hu.run_next hin hcap (by omega)
    exact ⟨w, by rw [Nat.mul_succ, run_add, hrun, chain_next, hblock], hw⟩

/-! ### The controller's run -/

section
variable {s : State} (hin : s.inputs = [])
include hin

theorem step_lenchk (hp : s.PHASE = .lenchk) : step s = execLenchk s := by
  simp only [step_of_no_input hin, engineStep_eq, hp]

theorem step_padlen (hp : s.PHASE = .padlen) : step s = execPadlen s := by
  simp only [step_of_no_input hin, engineStep_eq, hp]

theorem step_parsechk (hp : s.PHASE = .parsechk) : step s = execParsechk s := by
  simp only [step_of_no_input hin, engineStep_eq, hp]

theorem step_hinit (hp : s.PHASE = .hinit) : step s = execHinit s := by
  simp only [step_of_no_input hin, engineStep_eq, hp]

theorem step_dout (hp : s.PHASE = .dout) : step s = execDout s := by
  simp only [step_of_no_input hin, engineStep_eq, hp]

/-- The four steps before the first block: LENCHK, PADLEN, PARSECHK, HINIT (46_top_level.md R202). -/
theorem run_to_first_block (hp : s.PHASE = .lenchk) (hlen : s.MSG_LEN.toNat < 2 ^ 61) :
    ∃ t, runTimes step 4 s = .next t ∧ AfterBlocks s 0 t := by
  obtain ⟨t1, hlenchk, hp1, hchecked, hf1⟩ := execLenchk_lengthChecked hlen
  obtain ⟨t2, hpadlen, hp2, hcomputed, hf2⟩ := execPadlen_paddingComputed hchecked
  obtain ⟨t3, hparsechk, hp3, hcounted, hbi, hf3⟩ := execParsechk_blocksCounted hcomputed
  obtain ⟨t4, hhinit, hafter⟩ := execHinit_afterBlocks hcounted hbi
  have hframe2 : InvocationFrame s t2 := hf1.trans hf2
  have hframe3 : InvocationFrame s t3 := hframe2.trans hf3
  refine ⟨t4, ?_, hafter.of_frame hframe3⟩
  rw [show 4 = 1 + (1 + (1 + 1)) from rfl, run_add, run_one, step_lenchk hin hp, hlenchk, chain_next,
    run_add, run_one, step_padlen (hf1.inputs_eq.trans hin) hp1, hpadlen, chain_next,
    run_add, run_one, step_parsechk (hframe2.inputs_eq.trans hin) hp2, hparsechk, chain_next,
    run_one, step_hinit (hframe3.inputs_eq.trans hin) hp3, hhinit]

/-- From LENCHK to DOUT, with every Block compressed. -/
theorem run_to_dout (hp : s.PHASE = .lenchk) (hlen : s.MSG_LEN.toNat < 2 ^ 61)
    (hcap : s.MSG_LEN.toNat ≤ s.MSG_CAP.val) :
    ∃ t, runTimes step (4 + 131 * Contract.blockCount (message s)) s = .next t ∧ t.PHASE = .dout ∧
      t.H = Contract.hashAfter (message s) (Contract.blockCount (message s)) ∧ InvocationFrame s t := by
  obtain ⟨t, hrun, ht⟩ := run_to_first_block hin hp hlen
  obtain ⟨u, hblocks, hu⟩ := ht.run_blocks hin hcap (le_refl _)
  have hlast : Contract.blockCount (message s) = u.NB.toNat := by rw [hu.counted.nb_eq, hu.frame.message_eq]
  exact ⟨u, by rw [run_add, hrun, chain_next, hblocks], hu.phase.trans (if_pos hlast), hu.hash, hu.frame⟩

end

end Sys2Proof.Machine
end

section
/-! SUPPORT. What the engine's step keeps of ERRCODE, and STATUS over a run of the engine. -/

namespace Sys2Proof.Machine

/-! ### BUSY all along (46_top_level.md R203, R211) -/

/-- What every operation of the controller keeps: the pending inputs, and ERRCODE unless it raises an error. -/
def KeepsErrorCode (s t : State) : Prop := t.inputs = s.inputs ∧ (t.PHASE = .error ∨ t.ERRCODE = s.ERRCODE)

theorem keepsErrorCode_refl (s : State) : KeepsErrorCode s s := ⟨rfl, .inr rfl⟩

theorem keepsErrorCode_raise (e : ErrorCode) (s : State) : KeepsErrorCode s (raise e s) := ⟨rfl, .inl rfl⟩

section
variable {s t : State}

theorem execLenchk_keepsErrorCode (h : execLenchk s = .next t) : KeepsErrorCode s t := by
  rcases Nat.lt_or_ge s.MSG_LEN.toNat (2 ^ 61) with hlen | hlong
  · rw [execLenchk_ok hlen] at h
    cases h
    exact ⟨rfl, .inr rfl⟩
  · rw [execLenchk_overflow hlong] at h
    cases h
    exact keepsErrorCode_raise _ s

theorem execPadlen_keepsErrorCode (h : execPadlen s = .next t) : KeepsErrorCode s t := by
  by_cases hmod : padlenLength s % 64 = 0
  · rw [execPadlen_ok hmod] at h
    cases h
    exact ⟨rfl, .inr rfl⟩
  · rw [execPadlen_error hmod] at h
    cases h
    exact keepsErrorCode_raise _ s

theorem execParsechk_keepsErrorCode (h : execParsechk s = .next t) : KeepsErrorCode s t := by
  by_cases hmod : s.PLEN.toNat % 64 = 0
  · rw [execParsechk_ok hmod] at h
    cases h
    exact ⟨rfl, .inr rfl⟩
  · rw [execParsechk_error hmod] at h
    cases h
    exact keepsErrorCode_raise _ s

theorem execBload_keepsErrorCode (h : execBload s = .next t) : KeepsErrorCode s t := by
  rw [execBload_eq] at h
  split_ifs at h
  cases h
  exact ⟨rfl, .inr rfl⟩

theorem execWload_keepsErrorCode {i : BitVec 4} (h : execWload i s = .next t) : KeepsErrorCode s t := by
  rw [execWload_eq] at h
  cases h
  exact ⟨rfl, .inr rfl⟩

theorem execWexp_keepsErrorCode {i : BitVec 6} (h : execWexp i s = .next t) : KeepsErrorCode s t := by
  by_cases hi : 16 ≤ i.toNat
  · rw [execWexp_eq hi] at h
    cases h
    exact ⟨rfl, .inr rfl⟩
  · rw [execWexp_stuck (Nat.lt_of_not_le hi)] at h
    cases h

theorem execRound_keepsErrorCode {i : BitVec 6} (h : execRound i s = .next t) : KeepsErrorCode s t := by
  rw [execRound_eq] at h
  cases h
  exact ⟨rfl, .inr rfl⟩

theorem engineStep_keepsErrorCode (h : engineStep s = .next t) : KeepsErrorCode s t := by
  rw [engineStep_eq] at h
  cases hp : s.PHASE <;> simp only [hp] at h
  case idle | done | error => cases h; exact keepsErrorCode_refl s
  case lenchk => exact execLenchk_keepsErrorCode h
  case padlen => exact execPadlen_keepsErrorCode h
  case parsechk => exact execParsechk_keepsErrorCode h
  case bload => exact execBload_keepsErrorCode h
  case wload =>
    split at h
    · exact execWload_keepsErrorCode h
    · cases h
  case wexp => exact execWexp_keepsErrorCode h
  case round => exact execRound_keepsErrorCode h
  case hinit | vinit | hmix | dout => cases h; exact ⟨rfl, .inr rfl⟩
  case reservedE | reservedF => cases h

/-- The engine never leaves a phase that is not BUSY: only START and reset do (60_exceptions.md R238). -/
theorem engineStep_eq_self (h : engineStep s = .next t) (hidle : busy s = false) : t = s := by
  rw [engineStep_eq] at h
  rcases (not_busy_iff s).1 hidle with hp | hp | hp | hp | hp <;> simp only [hp] at h
  · cases h; rfl
  · cases h; rfl
  · cases h; rfl
  · cases h
  · cases h

/-- STATUS reads 0x01 before every engine step after which it does. -/
theorem engineStep_busy (h : engineStep s = .next t) (ht : status t = 0x01#8) : status s = 0x01#8 := by
  by_cases hbusy : busy s = true
  · obtain ⟨_, herror | hcode⟩ := engineStep_keepsErrorCode h
    · have hclear : busy t = false := (not_busy_iff t).2 (.inr (.inr (.inl herror)))
      rw [((status_eq_busy_iff t).1 ht).1] at hclear
      exact absurd hclear (by decide)
    · exact (status_eq_busy_iff s).2 ⟨hbusy, hcode ▸ ((status_eq_busy_iff t).1 ht).2⟩
  · rwa [← engineStep_eq_self h (Bool.eq_false_of_not_eq_true hbusy)]

/-- A run that ends with STATUS at 0x01 has read so in every state before. -/
theorem run_busy (hin : s.inputs = []) {m n : Nat} (hrun : runTimes step m s = .next t) (ht : status t = 0x01#8)
    (hn : n ≤ m) : ∃ u, runTimes step n s = .next u ∧ status u = 0x01#8 := by
  induction m generalizing s n with
  | zero =>
    obtain rfl : n = 0 := Nat.le_zero.1 hn
    exact ⟨t, hrun, ht⟩
  | succ m ih =>
    obtain ⟨u, hstep, hrest⟩ := chain_eq_next.1 ((run_succ m s).symm.trans hrun)
    have hengine : engineStep s = .next u := (step_of_no_input hin).symm.trans hstep
    have hinu : u.inputs = [] := (engineStep_keepsErrorCode hengine).1.trans hin
    cases n with
    | zero =>
      obtain ⟨w, hw, hbusy⟩ := ih hinu hrest (Nat.zero_le m)
      cases hw
      exact ⟨s, rfl, engineStep_busy hengine hbusy⟩
    | succ n =>
      obtain ⟨w, hw, hbusy⟩ := ih hinu hrest (Nat.le_of_succ_le_succ hn)
      exact ⟨w, by rw [run_succ, hstep, chain_next, hw], hbusy⟩

end

end Sys2Proof.Machine
end

section
/-! SUPPORT. The run of an invocation from its START to its end, and the proofs of O54 and O56 from it. -/

namespace Sys2Proof.Machine

/-! ### From LENCHK to the end of the invocation (46_top_level.md R208, R211) -/

/-- The number of steps from LENCHK to DONE. -/
abbrev invocationSteps (s : State) : Nat := 5 + 131 * ((s.MSG_LEN.toNat + 8) / 64 + 1)

/-- DOUT leaves the digest of the Message whose Blocks have been compressed. -/
theorem sha256_eq_digestBytes {s t : State} (hlen : s.MSG_LEN.toNat < 2 ^ 61)
    (hhash : t.H = Contract.hashAfter (message s) (Contract.blockCount (message s))) :
    Contract.sha256 (message s) = .ok (digestBytes t.H).toList := by
  rw [Contract.sha256_ok (by rwa [message_length]), Contract.compress_firstBlocks, digestBytes_toList, hhash]

/-- An invocation in range is BUSY for `invocationSteps` steps and then DONE with the digest of the contract. -/
theorem run_to_done {s : State} (hin : s.inputs = []) (hp : s.PHASE = .lenchk) (hcode : s.ERRCODE = .none)
    (hlen : s.MSG_LEN.toNat < 2 ^ 61) (hcap : s.MSG_LEN.toNat ≤ s.MSG_CAP.val) :
    (∀ n, n < invocationSteps s → ∃ u, runTimes step n s = .next u ∧ status u = 0x01#8) ∧
    ∃ t, runTimes step (invocationSteps s) s = .next t ∧ t.PHASE = .done ∧ t.ERRCODE = .none ∧
      Contract.sha256 (message s) = .ok t.DIGEST.toList ∧ t.MSG = s.MSG := by
  obtain ⟨t, hrun, hdout, hhash, hframe⟩ := run_to_dout hin hp hlen hcap
  have hsteps : invocationSteps s = 4 + 131 * Contract.blockCount (message s) + 1 := by
    rw [invocationSteps, Contract.blockCount, message_length]
    omega
  have hcodet : t.ERRCODE = .none := hframe.ERRCODE_eq.trans hcode
  have hbusy : status t = 0x01#8 :=
    (status_eq_busy_iff t).2 ⟨(busy_iff t).2 (by rw [hdout]; decide), hcodet⟩
  have hstep : step t = .next { t with DIGEST := digestBytes t.H, PHASE := .done } :=
    step_dout (hframe.inputs_eq.trans hin) hdout
  refine ⟨fun n hn => run_busy hin hrun hbusy (by omega), { t with DIGEST := digestBytes t.H, PHASE := .done }, ?_, rfl,
    hcodet, sha256_eq_digestBytes hlen hhash, hframe.MSG_eq⟩
  rw [hsteps, run_add, hrun, chain_next, run_one, hstep]

/-- An overlong invocation ends at its first step, in LENCHK. -/
theorem step_overlong {s : State} (hin : s.inputs = []) (hp : s.PHASE = .lenchk) (hlong : 2 ^ 61 ≤ s.MSG_LEN.toNat) :
    step s = .next (raise .overflow s) :=
  (step_lenchk hin hp).trans (execLenchk_overflow hlong)

/-! ### From an accepted START (46_top_level.md R201) -/

/-- The state in which the invocation begins once the START pending in `s` has been taken. -/
def invocationStart (s : State) : State := startedState (takeInput s [])

section
variable {s : State} (hin : s.inputs = [.host (.writeCtrl 0x01#8)])
  (hp : s.PHASE = .idle ∨ s.PHASE = .done ∨ s.PHASE = .error)
include hin hp

theorem step_start : step s = .next (invocationStart s) := by
  rw [step_of_host hin]
  exact execStart_eq_startedState (s := takeInput s []) hp

theorem run_from_start (n : Nat) : runTimes step (1 + n) s = runTimes step n (invocationStart s) := by
  rw [run_add, run_one, step_start hin hp, chain_next]

end

/-- Settles O54: STATUS is 0x01 in the last state before DONE, hence in every state of the run before it; the hash state
there is the fold of the contract's Blocks. -/
theorem invocationComputesSha256 : Obligations.InvocationComputesSha256 := by
  intro s hin hp
  refine ⟨fun hlen hcap => ?inRange, fun hlong => ?overlong⟩
  case inRange =>
    obtain ⟨hbusy, t, hrun, hdone, hcode, hdigest, hmsg⟩ := run_to_done (s := invocationStart s) rfl rfl rfl hlen hcap
    refine ⟨fun n hn => ?_, t, (run_from_start hin hp _).trans hrun, hdone, status_eq_done hdone hcode, hdigest, hmsg,
      msgByte_congr hmsg⟩
    rw [run_from_start hin hp]
    exact hbusy n hn
  case overlong =>
    have hstep := step_overlong (s := invocationStart s) rfl rfl hlong
    refine ⟨⟨_, (run_one s).trans (step_start hin hp), status_startedState _⟩, _,
      (run_from_start hin hp 1).trans ((run_one _).trans hstep), rfl, rfl, ?_, rfl⟩
    exact Contract.sha256_overflow (by rwa [message_length])

/-! ### Two invocations of the same Message (46_top_level.md R209) -/

/-- The number of steps from the START to the end of an invocation of `L` bytes. -/
def stepsToEnd (L : Nat) : Nat := if L < 2 ^ 61 then 1 + (5 + 131 * ((L + 8) / 64 + 1)) else 2

/-- The end `t` of an invocation is the answer of the contract: DONE with the digest, or ERROR with the code. -/
def EndsAs : Except ErrorCode (List Byte) → State → Prop
  | .ok d, t => t.PHASE = .done ∧ t.ERRCODE = .none ∧ t.DIGEST.toList = d
  | .error e, t => t.PHASE = .error ∧ t.ERRCODE = e

/-- The answer determines all that the host sees of the end. -/
theorem EndsAs.alike {r : Except ErrorCode (List Byte)} {t t' : State} (h : EndsAs r t) (h' : EndsAs r t') :
    (t.PHASE = .done ∨ t.PHASE = .error) ∧ t.PHASE = t'.PHASE ∧ t.ERRCODE = t'.ERRCODE ∧
      (t.PHASE = .done → t.DIGEST = t'.DIGEST) := by
  cases r with
  | ok d =>
    obtain ⟨hphase, hcode, hdigest⟩ := h
    obtain ⟨hphase', hcode', hdigest'⟩ := h'
    exact ⟨.inl hphase, hphase.trans hphase'.symm, hcode.trans hcode'.symm,
      fun _ => Vector.toList_inj.1 (hdigest.trans hdigest'.symm)⟩
  | error e =>
    obtain ⟨hphase, hcode⟩ := h
    obtain ⟨hphase', hcode'⟩ := h'
    exact ⟨.inr hphase, hphase.trans hphase'.symm, hcode.trans hcode'.symm,
      fun hdone => absurd (hphase.symm.trans hdone) (by decide)⟩

/-- The whole run of an accepted START in range: how long it is depends on `L`, how it ends on the Message. -/
theorem invocation_endsAs {s : State} (hin : s.inputs = [.host (.writeCtrl 0x01#8)])
    (hp : s.PHASE = .idle ∨ s.PHASE = .done ∨ s.PHASE = .error) (hrange : messageInRange s) :
    (∀ j, 1 ≤ j → j < stepsToEnd s.MSG_LEN.toNat → ∃ u, runTimes step j s = .next u ∧ status u = 0x01#8) ∧
    ∃ t, runTimes step (stepsToEnd s.MSG_LEN.toNat) s = .next t ∧ EndsAs (Contract.sha256 (message s)) t := by
  obtain ⟨hok, hoverflow⟩ := invocationComputesSha256 s hin hp
  by_cases hlen : s.MSG_LEN.toNat < 2 ^ 61
  · have hcap : s.MSG_LEN.toNat ≤ s.MSG_CAP.val := hrange.resolve_right (Nat.not_le.2 hlen)
    obtain ⟨hbusy, t, hrun, hdone, hstatus, hdigest, _⟩ := hok hlen hcap
    have hcode : t.ERRCODE = .none := (errorCode_eq_none_iff _).2 (by rw [← status_div_sixteen, hstatus]; rfl)
    rw [stepsToEnd, if_pos hlen, hdigest]
    refine ⟨fun j hj hend => ?_, t, hrun, hdone, hcode, rfl⟩
    obtain ⟨n, rfl⟩ := Nat.exists_eq_add_of_le hj
    exact hbusy n (by omega)
  · obtain ⟨hbusy, t, hrun, herror, hcode, hanswer, _⟩ := hoverflow (Nat.not_lt.1 hlen)
    rw [stepsToEnd, if_neg hlen, hanswer]
    refine ⟨fun j hj hend => ?_, t, hrun, herror, hcode⟩
    obtain rfl : j = 1 := by omega
    exact hbusy

/-- Settles O56: the length of the run is a function of `L` and its end one of the Message, by O54. -/
theorem invocationsAreDeterministic : Obligations.InvocationsAreDeterministic := by
  intro s s' hin hin' hp hp' hL hbytes hrange hrange'
  have hlength : 2 ≤ stepsToEnd s.MSG_LEN.toNat := by
    rw [stepsToEnd]
    split_ifs <;> omega
  obtain ⟨hbusy, t, hrun, hend⟩ := invocation_endsAs hin hp hrange
  obtain ⟨hbusy', t', hrun', hend'⟩ := invocation_endsAs hin' hp' hrange'
  rw [← hL] at hbusy' hrun'
  rw [← message_congr hL hbytes] at hend'
  refine ⟨stepsToEnd s.MSG_LEN.toNat, t, t', hlength, fun j hj hlt => ?_, hrun, hrun', hend.alike hend'⟩
  obtain ⟨u, hu, hstatus⟩ := hbusy j hj hlt
  obtain ⟨u', hu', hstatus'⟩ := hbusy' j hj hlt
  exact ⟨u, u', hu, hu', hstatus, hstatus'⟩

end Sys2Proof.Machine
end

section
/-! SUPPORT. How an operation reaches ERROR, what becomes of the engine there, and the proof of O47 from it. -/

namespace Sys2Proof.Machine

section
variable {s t : State}

/-! ### The three checks: the only way into ERROR is `raise` with the check's own code -/

theorem execLenchk_eq_raise (h : execLenchk s = .next t) (ht : t.PHASE = .error) : t = raise .overflow s := by
  rcases Nat.lt_or_ge s.MSG_LEN.toNat (2 ^ 61) with hlen | hlong
  · rw [execLenchk_ok hlen] at h
    cases h
    cases ht
  · rw [execLenchk_overflow hlong] at h
    cases h
    rfl

theorem execPadlen_eq_raise (h : execPadlen s = .next t) (ht : t.PHASE = .error) : t = raise .padding s := by
  by_cases hmod : padlenLength s % 64 = 0
  · rw [execPadlen_ok hmod] at h
    cases h
    cases ht
  · rw [execPadlen_error hmod] at h
    cases h
    rfl

theorem execParsechk_eq_raise (h : execParsechk s = .next t) (ht : t.PHASE = .error) :
    t = raise .invalidBlockLength s := by
  by_cases hmod : s.PLEN.toNat % 64 = 0
  · rw [execParsechk_ok hmod] at h
    cases h
    cases ht
  · rw [execParsechk_error hmod] at h
    cases h
    rfl

/-! ### The operations without an error arm (60_exceptions.md R235) -/

/-- The phase an operation chooses between two others than ERROR. -/
theorem ite_phase_ne_error (c : Prop) [Decidable c] {p q : Phase} (hp : p ≠ .error) (hq : q ≠ .error) :
    (if c then p else q) ≠ .error := by
  split
  · exact hp
  · exact hq

theorem execStart_phase_ne_error (h : execStart s = .next t) (hs : s.PHASE ≠ .error) : t.PHASE ≠ .error := by
  by_cases hp : s.PHASE = .idle ∨ s.PHASE = .done ∨ s.PHASE = .error
  · rw [execStart_accepted hp] at h
    cases h
    exact Phase.noConfusion
  · rw [execStart_ignored hp] at h
    cases h
    exact hs

theorem execHinit_phase_ne_error (h : execHinit s = .next t) : t.PHASE ≠ .error := by
  cases h
  exact ite_phase_ne_error _ (by decide) (by decide)

theorem execBload_phase_ne_error (h : execBload s = .next t) : t.PHASE ≠ .error := by
  rw [execBload_eq] at h
  split_ifs at h
  cases h
  exact Phase.noConfusion

theorem execWload_phase_ne_error {i : BitVec 4} (h : execWload i s = .next t) : t.PHASE ≠ .error := by
  rw [execWload_eq] at h
  cases h
  exact ite_phase_ne_error _ (by decide) (by decide)

theorem execWexp_phase_ne_error {i : BitVec 6} (h : execWexp i s = .next t) : t.PHASE ≠ .error := by
  by_cases hi : 16 ≤ i.toNat
  · rw [execWexp_eq hi] at h
    cases h
    exact ite_phase_ne_error _ (by decide) (by decide)
  · rw [execWexp_stuck (Nat.lt_of_not_le hi)] at h
    cases h

theorem execRound_phase_ne_error {i : BitVec 6} (h : execRound i s = .next t) : t.PHASE ≠ .error := by
  rw [execRound_eq] at h
  cases h
  exact ite_phase_ne_error _ (by decide) (by decide)

theorem execHmix_phase_ne_error (h : execHmix s = .next t) : t.PHASE ≠ .error := by
  cases h
  exact ite_phase_ne_error _ (by decide) (by decide)

/-! ### Every operation of the controller -/

/-- The three checks, each with its own code (60_exceptions.md R230). -/
def ChecksFor (i : Instr) (e : ErrorCode) : Prop :=
  (i = .lenchk ∧ e = .overflow) ∨ (i = .padlen ∧ e = .padding) ∨ (i = .parsechk ∧ e = .invalidBlockLength)

/-- A single operation reaches ERROR only by `raise`, as one of the three checks. -/
theorem exec_eq_raise {i : Instr} (hpad : i ≠ .pad) (hparse : i ≠ .parse) (hcompress : i ≠ .compress)
    (hsha256 : i ≠ .sha256) (hs : s.PHASE ≠ .error) (h : exec i s = .next t) (ht : t.PHASE = .error) :
    ∃ e, t = raise e s ∧ ChecksFor i e := by
  cases i with
  | lenchk => exact ⟨_, execLenchk_eq_raise h ht, .inl ⟨rfl, rfl⟩⟩
  | padlen => exact ⟨_, execPadlen_eq_raise h ht, .inr (.inl ⟨rfl, rfl⟩)⟩
  | parsechk => exact ⟨_, execParsechk_eq_raise h ht, .inr (.inr ⟨rfl, rfl⟩)⟩
  | start => exact absurd ht (execStart_phase_ne_error h hs)
  | hinit => exact absurd ht (execHinit_phase_ne_error h)
  | bload => exact absurd ht (execBload_phase_ne_error h)
  | wload => exact absurd ht (execWload_phase_ne_error h)
  | wexp => exact absurd ht (execWexp_phase_ne_error h)
  | round => exact absurd ht (execRound_phase_ne_error h)
  | hmix => exact absurd ht (execHmix_phase_ne_error h)
  | vinit | dout => cases h; cases ht
  | idle | done | error => cases h; exact absurd ht hs
  | reservedE | reservedF => cases h
  | pad => exact absurd rfl hpad
  | parse => exact absurd rfl hparse
  | compress => exact absurd rfl hcompress
  | sha256 => exact absurd rfl hsha256

/-- "once in `ERROR` the engine executes nothing" (60_exceptions.md R238). -/
theorem step_error (hin : s.inputs = []) (hp : s.PHASE = .error) : step s = .next s := by
  simp only [step_of_no_input hin, engineStep_eq, hp, execError]

end

/-- Settles O47: an operation reaches ERROR only by `raise`, which writes ERRCODE and PHASE; STATUS shows both, and the
engine stays in ERROR. -/
theorem raisingWritesOnlyTheErrorRegisters : Obligations.RaisingWritesOnlyTheErrorRegisters := by
  intro i s t hpad hparse hcompress hsha256 hs h ht
  obtain ⟨e, rfl, hcheck⟩ := exec_eq_raise hpad hparse hcompress hsha256 hs h ht
  refine ⟨rfl, hcheck, ?err, status_div_sixteen _, fun hin => step_error hin ht⟩
  case err => rw [status_bit2, errFlag_iff, ht]

end Sys2Proof.Machine
end

section
/-! SUPPORT. The reset event as a step of the machine, and the proof of O45 from it. -/

namespace Sys2Proof.Machine

/-- STATUS reads 0x00 in IDLE with no error recorded. -/
theorem status_eq_idle {s : State} (hphase : s.PHASE = .idle) (hcode : s.ERRCODE = .none) : status s = 0x00#8 := by
  have hbusy : busy s = false := (not_busy_iff s).2 (.inl hphase)
  rw [← BitVec.toNat_inj, status_toNat_of_phase, hphase, hcode, hbusy]
  rfl

theorem status_resetEngine (s : State) : status (resetEngine s) = 0x00#8 :=
  status_eq_idle (resetEngine_PHASE s) (resetEngine_ERRCODE s)

theorem msgByte_resetEngine (s : State) (a : Nat) : msgByte (resetEngine s) a = msgByte s a :=
  msgByte_congr (resetEngine_MSG s) a

/-- The reset event is taken whatever PHASE is, "including during an invocation" (70_reset_and_hazards.md R260). -/
theorem step_reset {s : State} {rest : List Input} (h : s.inputs = .host .reset :: rest) :
    step s = .next (resetEngine (takeInput s rest)) := by
  rw [step_of_host h, hostMove]

/-- Settles O45: the step is `resetEngine` on the state without the taken input, whose fields the laws of `resetEngine`
and `takeInput` give. -/
theorem resetEventReturnsToIdle : Obligations.ResetEventReturnsToIdle := by
  intro s rest h
  refine ⟨resetEngine (takeInput s rest), step_reset h, resetEngine_PHASE _, resetEngine_ERRCODE _, resetEngine_T _,
    status_resetEngine _, ?msg, ?bytes, ?cap, ?inputs, ?reads⟩
  case msg => rw [resetEngine_MSG, takeInput_MSG]
  case bytes => exact fun a => (msgByte_resetEngine _ a).trans (msgByte_congr (takeInput_MSG s rest) a)
  case cap => rw [resetEngine_MSG_CAP, takeInput_MSG_CAP]
  case inputs => rw [resetEngine_inputs, takeInput_inputs]
  case reads => rw [resetEngine_reads, takeInput_reads]

end Sys2Proof.Machine
end

section
/-! SUPPORT. The decoder and the encoder on the two fields of a controller word, and the proofs of O1 to O4 from
them. -/

namespace Sys2Proof.Machine

/-! ### The encoder (30_encoding.md R97, R98, R101) -/

/-- Every well-formed operation with a word, constructor by constructor. -/
theorem decode_of_encode (i : Instr) : Laws.DecodeEncode.Statement i := by
  cases i with
  | start => exact Laws.DecodeEncode.start
  | lenchk => exact Laws.DecodeEncode.lenchk
  | padlen => exact Laws.DecodeEncode.padlen
  | parsechk => exact Laws.DecodeEncode.parsechk
  | hinit => exact Laws.DecodeEncode.hinit
  | bload => exact Laws.DecodeEncode.bload
  | wload t => exact Laws.DecodeEncode.wload t
  | wexp t => exact Laws.DecodeEncode.wexp t
  | vinit => exact Laws.DecodeEncode.vinit
  | round t => exact Laws.DecodeEncode.round t
  | hmix => exact Laws.DecodeEncode.hmix
  | dout => exact Laws.DecodeEncode.dout
  | idle => exact Laws.DecodeEncode.idle
  | done => exact Laws.DecodeEncode.done
  | error => exact Laws.DecodeEncode.error
  | reservedE => exact Laws.DecodeEncode.reservedE
  | reservedF => exact Laws.DecodeEncode.reservedF
  | pad => exact Laws.DecodeEncode.pad
  | parse => exact Laws.DecodeEncode.parse
  | compress => exact Laws.DecodeEncode.compress
  | sha256 => exact Laws.DecodeEncode.sha256

/-- The operations R105 composes of others have no encoding (30_encoding.md R97), and every other one has. -/
theorem encode_eq_none_iff (i : Instr) : encode i = none ↔ i = .pad ∨ i = .parse ∨ i = .compress ∨ i = .sha256 := by
  cases i <;> simp [encode]

/-- Settles O1: one lemma per constructor for the words, and the four composed operations for the absence of one. -/
theorem decodeEncodeAgree : Obligations.DecodeEncodeAgree :=
  fun i hwf => ⟨decode_of_encode i hwf, encode_eq_none_iff i⟩

/-! ### The decoder on a phase and an index (30_encoding.md R100) -/

/-- Every controller word is a phase and an index. -/
theorem exists_packUop (w : BitVec 10) : ∃ (p : Phase) (t : BitVec 6), w = packUop p.code t :=
  ⟨Phase.ofCode (uopPhase w), uopT w, by rw [Phase.code_ofCode, packUop_uopPhase_uopT]⟩

/-- The phase bits are the upper four. -/
theorem packUop_toNat_div (c : BitVec 4) (t : BitVec 6) : (packUop c t).toNat / 64 = c.toNat := by
  have ht := t.isLt
  rw [packUop, append_toNat]
  omega

theorem decodeCommand_eq_row {v : BitVec 8} {i : Instr} (h : decode (.command v) = .row i) :
    v = 0x01#8 ∧ i = .start := by
  by_cases hv : v = 0x01#8
  · subst hv
    cases h
    exact ⟨rfl, rfl⟩
  · rw [decode, decodeCommand, if_neg hv] at h
    cases h

/-- WLOAD's four bits are all of an index below 16. -/
theorem append_setWidth_of_lt {t : BitVec 6} (h : t.toNat < 16) : 0#2 ++ t.setWidth 4 = t := by
  revert t; decide +kernel

/-- The operation has an index operand. -/
def HasIndex (i : Instr) : Prop := (∃ t, i = .wload t) ∨ (∃ t, i = .wexp t) ∨ (∃ t, i = .round t)

/-- The word of a decoded operation has the same phase, and the same index where the operation has one. -/
theorem encode_of_decode_packUop {p : Phase} {t : BitVec 6} {i : Instr}
    (h : decode (.uop (packUop p.code t)) = .row i) :
    ∃ t', encode i = some (.uop (packUop p.code t')) ∧ (HasIndex i → t' = t) := by
  rw [decode_packUop_code] at h
  cases p
  case wload =>
    by_cases ht : t.toNat < 16
    · simp only [ht, if_true] at h
      cases h
      exact ⟨_, rfl, fun _ => append_setWidth_of_lt ht⟩
    · simp [ht] at h
  case wexp | round => cases h; exact ⟨t, rfl, fun _ => rfl⟩
  all_goals
    cases h
    exact ⟨0, rfl, fun hindex => by simp [HasIndex] at hindex⟩

/-- Settles O2: 0x01 is the one command that decodes, and a controller word is its phase and its index. -/
theorem encodeDecodeKeepsEveryReadBit : Obligations.EncodeDecodeKeepsEveryReadBit := by
  refine ⟨fun v i h => ?command, fun w i h => ?uop⟩
  case command =>
    obtain ⟨rfl, rfl⟩ := decodeCommand_eq_row h
    rfl
  case uop =>
    obtain ⟨p, t, rfl⟩ := exists_packUop w
    obtain ⟨t', hencode, hindex⟩ := encode_of_decode_packUop h
    refine ⟨packUop p.code t', hencode, ?_, fun hi => by rw [hindex hi]⟩
    rw [packUop_toNat_div, packUop_toNat_div]

/-! ### Masks (30_encoding.md R101) -/

/-- The mask `0x3c0` keeps the phase. -/
theorem phaseMask_packUop (c : BitVec 4) (t : BitVec 6) : packUop c t &&& 0x3c0#10 = packUop c 0 := by
  revert c t; decide +kernel

/-- The mask of a phase's row selects the words with its phase bits. -/
theorem code_of_phaseMask {c d : BitVec 4} {t : BitVec 6} (h : packUop c t &&& 0x3c0#10 = packUop d 0) : c = d := by
  rw [phaseMask_packUop] at h
  rw [← uopPhase_packUop c 0, h, uopPhase_packUop]

/-- The mask `0x3f0` keeps the phase and the upper two bits of the index. -/
theorem wloadMask_packUop (c : BitVec 4) (t : BitVec 6) :
    packUop c t &&& 0x3f0#10 = 0x180#10 ↔ c = Phase.wload.code ∧ t.toNat < 16 := by
  revert c t; decide +kernel

/-- A word whose phase bits are those of `p` decodes as phase `p` with its own index. -/
theorem decode_of_phaseMask {u : BitVec 10} {p : Phase} {d : Decoded}
    (hd : decode (.uop (packUop p.code (BitVec.ofNat 6 (u.toNat % 64)))) = d)
    (h : u &&& 0x3c0#10 = packUop p.code 0) : decode (.uop u) = d := by
  obtain ⟨q, t, rfl⟩ := exists_packUop u
  have hcode : q.code = p.code := code_of_phaseMask h
  have hindex : BitVec.ofNat 6 ((packUop q.code t).toNat % 64) = t := by
    have ht := t.isLt
    apply BitVec.eq_of_toNat_eq
    rw [packUop, append_toNat, BitVec.toNat_ofNat]
    omega
  rwa [hindex, ← hcode] at hd

/-- WLOAD's row: its mask also asks that the index be below 16. -/
theorem decode_of_wloadMask {u : BitVec 10} (h : u &&& 0x3f0#10 = 0x180#10) :
    decode (.uop u) = .row (.wload (BitVec.ofNat 4 (u.toNat % 16))) := by
  obtain ⟨p, t, rfl⟩ := exists_packUop u
  obtain ⟨hcode, ht⟩ := (wloadMask_packUop p.code t).1 h
  have hindex : BitVec.ofNat 4 ((packUop p.code t).toNat % 16) = t.setWidth 4 := by
    apply BitVec.eq_of_toNat_eq
    rw [packUop, append_toNat, BitVec.toNat_ofNat, BitVec.toNat_setWidth]
    omega
  rw [hindex, hcode, decode_packUop_code]
  exact if_pos ht

/-- The words of WLOAD's phase that its mask does not select. -/
theorem decode_of_not_wloadMask {u : BitVec 10} (h : u &&& 0x3c0#10 = packUop Phase.wload.code 0)
    (hmask : u &&& 0x3f0#10 ≠ 0x180#10) : decode (.uop u) = .noRow .unreachableWload := by
  obtain ⟨p, t, rfl⟩ := exists_packUop u
  have hcode : p.code = Phase.wload.code := code_of_phaseMask h
  have ht : ¬ t.toNat < 16 := fun ht => hmask ((wloadMask_packUop p.code t).2 ⟨hcode, ht⟩)
  rw [hcode, decode_packUop_code]
  exact if_neg ht

/-- Settles O3: each match is the word of a phase with index 0, and the phase decides the row. -/
theorem wordSelectsItsTableRow : Obligations.WordSelectsItsTableRow := fun _ =>
  ⟨decode_of_phaseMask (decode_packUop_code .idle _), decode_of_phaseMask (decode_packUop_code .lenchk _),
    decode_of_phaseMask (decode_packUop_code .padlen _), decode_of_phaseMask (decode_packUop_code .parsechk _),
    decode_of_phaseMask (decode_packUop_code .hinit _), decode_of_phaseMask (decode_packUop_code .bload _),
    decode_of_wloadMask, decode_of_not_wloadMask,
    decode_of_phaseMask (decode_packUop_code .wexp _), decode_of_phaseMask (decode_packUop_code .vinit _),
    decode_of_phaseMask (decode_packUop_code .round _), decode_of_phaseMask (decode_packUop_code .hmix _),
    decode_of_phaseMask (decode_packUop_code .dout _), decode_of_phaseMask (decode_packUop_code .done _),
    decode_of_phaseMask (decode_packUop_code .error _), decode_of_phaseMask (decode_packUop_code .reservedE _),
    decode_of_phaseMask (decode_packUop_code .reservedF _)⟩

/-- Settles O4: the decoder evaluated on the nine words. -/
theorem sampleWordsDecode : Obligations.SampleWordsDecode := by
  unfold Obligations.SampleWordsDecode
  decide

end Sys2Proof.Machine
end

section
/-! SUPPORT. One step of the machine on a pending input, and the proofs of O5 to O8, O39 and O46 from it. -/

namespace Sys2Proof.Machine

/-! ### The engine's turn (46_top_level.md R202, R203, 30_encoding.md R102) -/

theorem step_of_engine {s : State} {rest : List Input} (h : s.inputs = .engine :: rest) :
    step s = engineStep (takeInput s rest) := by
  simp only [step, h]

theorem engineStep_of_row {s : State} {i : Instr} (h : decode (.uop (controllerWord s)) = .row i) :
    engineStep s = exec i s := by
  simp only [engineStep, h]

/-- Settles O5: the engine's step looks at PHASE and T only, so the pending list decides only whose turn it is. -/
theorem stepRunsTheDecodedOperation : Obligations.StepRunsTheDecodedOperation := fun _ _ h =>
  ⟨fun hin => (step_of_no_input hin).trans (engineStep_of_row h),
    fun rest hin => (step_of_engine hin).trans (engineStep_of_row (s := takeInput _ rest) h)⟩

/-- A word of WLOAD with `T >= 16` selects no row. -/
theorem engineStep_wload_stuck {s : State} (hp : s.PHASE = .wload) (hT : 16 ≤ s.T.toNat) :
    engineStep s = .fault .stuckUnreachableWord := by
  rw [engineStep_eq, hp]
  exact if_neg (Nat.not_lt.2 hT)

/-- Settles O8: two operations are the fault itself, WEXP checks its index, and WLOAD's word is rejected before. -/
theorem reservedAndUnreachableWordsAreStuck : Obligations.ReservedAndUnreachableWordsAreStuck := fun s =>
  ⟨rfl, rfl, fun _ ht => execWexp_stuck ht s,
    fun hin hp hT => (step_of_no_input hin).trans (engineStep_wload_stuck hp hT),
    fun hin hp hT => (step_wexp hin hp).trans (execWexp_stuck hT s)⟩

theorem engineStep_waiting {s : State} (h : s.PHASE = .idle ∨ s.PHASE = .done ∨ s.PHASE = .error) :
    engineStep s = .next s := by
  rw [engineStep_eq]
  rcases h with hp | hp | hp
  · rw [hp]; rfl
  · rw [hp]; rfl
  · rw [hp]; rfl

/-- Settles O39: the three phases have no operation, and the engine's step is theirs. -/
theorem waitingPhasesChangeNothing : Obligations.WaitingPhasesChangeNothing := fun _ =>
  ⟨rfl, rfl, rfl, fun hin hp => (step_of_no_input hin).trans (engineStep_waiting hp)⟩

/-- Settles O46: the state after reset is in IDLE with nothing pending. -/
theorem resetStateIsIdle : Obligations.ResetStateIsIdle :=
  ⟨rfl, rfl, rfl, status_eq_idle rfl rfl, (step_of_no_input rfl).trans (engineStep_waiting (.inl rfl))⟩

/-! ### CTRL (10_state.md R37, 46_top_level.md R212) -/

theorem hostWriteCtrl_start (s : State) : hostWriteCtrl 0x01#8 s = exec .start s := rfl

theorem hostWriteCtrl_reserved {v : BitVec 8} (h : v ≠ 0x01#8) (s : State) : hostWriteCtrl v s = .next s := by
  simp only [hostWriteCtrl, decode, decodeCommand, if_neg h]

/-- Settles O6: the write is START or selects no row. -/
theorem ctrlWriteIsACommandOrIgnored : Obligations.CtrlWriteIsACommandOrIgnored := by
  intro s v rest hin
  rw [step_of_host hin]
  refine ⟨?_, fun hv => hostWriteCtrl_reserved hv _⟩
  rintro rfl
  exact hostWriteCtrl_start _

/-! ### A placed word (log 18) -/

/-- A placed input is taken by the next step, which leaves the list as it was before. -/
theorem step_placed_host (m : HostMove) (s : State) : step { s with inputs := .host m :: s.inputs } = hostMove m s :=
  step_of_host rfl

theorem step_placed_engine (s : State) : step { s with inputs := .engine :: s.inputs } = engineStep s :=
  step_of_engine rfl

/-- `s` with the controller word `w` in PHASE and T. -/
def withUop (w : BitVec 10) (s : State) : State := { s with PHASE := Phase.ofCode (uopPhase w), T := uopT w }

theorem controllerWord_withUop (w : BitVec 10) (s : State) : controllerWord (withUop w s) = w := controllerWord_place s w

theorem tableControlWord_uop (w : BitVec 10) : tableControlWord 16 w.toNat = some (.uop w) := by
  rw [tableControlWord, if_neg (by decide), if_pos w.isLt, BitVec.ofNat_toNat, BitVec.setWidth_eq]

/-- Settles O7: a placed command is the host's next write of CTRL, and a placed controller word is the controller word
of the engine's next step. -/
theorem placedWordRunsNext : Obligations.PlacedWordRunsNext := by
  refine fun s => ⟨step_placed_host (.writeCtrl 0x01#8) s, fun w i h => ?uop⟩
  case uop =>
    rw [State.withFetchWord, tableControlWord_uop]
    have hword : decode (.uop (controllerWord (withUop w s))) = .row i := by rw [controllerWord_withUop, h]
    exact (step_placed_engine (withUop w s)).trans (engineStep_of_row hword)

end Sys2Proof.Machine
end

section
/-! SUPPORT. The host's accesses of MSG, CTRL and DIGEST, and the proofs of O41, O43, O44 and O55 from them. -/

namespace Sys2Proof.Machine

/-! ### Reads (46_top_level.md R205, R212) -/

theorem step_readCtrl {s : State} {rest : List Input} (h : s.inputs = .host .readCtrl :: rest) :
    step s = .next { s with inputs := rest, reads := .ctrl 0x00#8 :: s.reads } :=
  step_of_host h

theorem step_readDigest {s : State} {i : Fin 32} {rest : List Input} (h : s.inputs = .host (.readDigest i) :: rest) :
    step s = .next { s with inputs := rest, reads := .digest i (digestRead (takeInput s rest) i) :: s.reads } :=
  step_of_host h

theorem digestRead_done {s : State} (h : s.PHASE = .done) (i : Fin 32) : digestRead s i = s.DIGEST.get i := if_pos h

/-- Settles O41: both reads only record a value, and DIGEST's is the digest byte in DONE. -/
theorem hostReadsOfCtrlAndDigest : Obligations.HostReadsOfCtrlAndDigest := by
  refine fun s rest => ⟨step_readCtrl, fun i hin => ⟨⟨_, step_readDigest hin⟩, fun hdone => ?done⟩⟩
  case done =>
    rw [step_readDigest hin, digestRead_done (s := takeInput s rest) hdone]
    rfl

/-! ### Writes of the Message (46_top_level.md R207, R212) -/

theorem hostWriteMsg_beyondCap {s : State} {i : Nat} (b : Byte) (h : s.MSG_CAP.val ≤ i) :
    hostWriteMsg i b s = .fault .msgBeyondCap := if_pos h

theorem hostWriteMsg_refused {s : State} {i : Nat} (b : Byte) (hcap : i < s.MSG_CAP.val) (hbusy : busy s = true)
    (hi : i < s.MSG_LEN.toNat) : hostWriteMsg i b s = .refused .messageWriteWhileBusy := by
  rw [hostWriteMsg, if_neg (Nat.not_le.2 hcap), if_pos (by simp [hbusy, hi])]

theorem hostWriteMsg_enabled {s : State} {i : Nat} (b : Byte) (hcap : i < s.MSG_CAP.val)
    (h : busy s = false ∨ s.MSG_LEN.toNat ≤ i) : hostWriteMsg i b s = .next (writeMsg s i b) := by
  have hallowed : ¬ (busy s && decide (i < msgLength s)) = true := by
    rcases h with hidle | hi
    · simp [hidle]
    · simp [hi]
  rw [hostWriteMsg, if_neg (Nat.not_le.2 hcap), if_neg hallowed]

/-- A write the host's port takes is one to a byte the platform has, and while BUSY to none of the Message. -/
theorem hostWriteMsg_eq_next {s t : State} {i : Nat} {b : Byte} (h : hostWriteMsg i b s = .next t) :
    i < s.MSG_CAP.val ∧ (busy s = false ∨ s.MSG_LEN.toNat ≤ i) ∧ t = writeMsg s i b := by
  rcases Nat.lt_or_ge i s.MSG_CAP.val with hcap | hcap
  · rcases Nat.lt_or_ge i s.MSG_LEN.toNat with hi | hi
    · cases hbusy : busy s
      · rw [hostWriteMsg_enabled b hcap (.inl hbusy)] at h
        cases h
        exact ⟨hcap, .inl rfl, rfl⟩
      · rw [hostWriteMsg_refused b hcap hbusy hi] at h
        cases h
    · rw [hostWriteMsg_enabled b hcap (.inr hi)] at h
      cases h
      exact ⟨hcap, .inr hi, rfl⟩
  · rw [hostWriteMsg_beyondCap b hcap] at h
    cases h

/-- Settles O43: an enabled write is `Memory.write` at its own index; the other two stop by name. -/
theorem hostMessageWrites : Obligations.HostMessageWrites := by
  intro s i b rest hin
  rw [step_of_host hin, status_bit0]
  refine ⟨fun hcap hallowed => ?enabled, hostWriteMsg_refused (s := takeInput s rest) b,
    hostWriteMsg_beyondCap (s := takeInput s rest) b⟩
  case enabled =>
    refine ⟨_, hostWriteMsg_enabled (s := takeInput s rest) b hcap hallowed, msgByte_writeMsg_self _ i b,
      fun a ha => ?_, rfl⟩
    rw [msgByte_writeMsg_ne _ b ha, msgByte_congr (takeInput_MSG s rest)]

/-! ### Moves while BUSY (46_top_level.md R212) -/

/-- `t` is `s` but for what a host move may touch during a run: the values returned to the host, and bytes of MSG behind
the Message. -/
def HostFrame (s t : State) : Prop :=
  t = { s with MSG := t.MSG, reads := t.reads } ∧ ∀ i, i < s.MSG_LEN.toNat → msgByte t i = msgByte s i

theorem hostFrame_refl (s : State) : HostFrame s s := ⟨rfl, fun _ _ => rfl⟩

theorem hostFrame_returnToHost (r : ReadValue) (s : State) : HostFrame s (returnToHost r s) := ⟨rfl, fun _ _ => rfl⟩

theorem hostFrame_writeMsg {s : State} {i : Nat} (b : Byte) (h : s.MSG_LEN.toNat ≤ i) :
    HostFrame s (writeMsg s i b) :=
  ⟨rfl, fun _ ha => msgByte_writeMsg_ne s b (by omega)⟩

/-- While BUSY, START and a write of MSG_LEN are ignored (46_top_level.md R201, R206). -/
theorem hostWriteCtrl_busy {s : State} (v : BitVec 8) (h : busy s = true) : hostWriteCtrl v s = .next s := by
  by_cases hv : v = 0x01#8
  · subst hv
    refine execStart_ignored fun hp => ?_
    have hidle : busy s = false := (not_busy_iff s).2 (by tauto)
    rw [h] at hidle
    cases hidle
  · exact hostWriteCtrl_reserved hv s

theorem hostMove_frame_of_busy {s t : State} {m : HostMove} (hbusy : busy s = true) (hreset : m ≠ .reset)
    (h : hostMove m s = .next t) : HostFrame s t := by
  cases m with
  | writeMsg i b =>
    obtain ⟨_, hallowed, rfl⟩ := hostWriteMsg_eq_next h
    exact hostFrame_writeMsg b (hallowed.resolve_left (by simp [hbusy]))
  | writeMsgLen v =>
    cases (hostWriteMsgLen_ignored v hbusy).symm.trans h
    exact hostFrame_refl s
  | writeCtrl v =>
    cases (hostWriteCtrl_busy v hbusy).symm.trans h
    exact hostFrame_refl s
  | readMsgLen | readCtrl | readStatus | readDigest => cases h; exact hostFrame_returnToHost _ s
  | writeStatus | writeDigest => cases h; exact hostFrame_refl s
  | reset => exact absurd rfl hreset

/-- Settles O44: move by move, what a host move may touch while BUSY. -/
theorem hostMovesWhileBusyDisturbNothing : Obligations.HostMovesWhileBusyDisturbNothing := by
  intro s t m rest hbusy hin hreset h
  rw [status_bit0] at hbusy
  rw [step_of_host hin] at h
  exact hostMove_frame_of_busy (s := takeInput s rest) hbusy hreset h

/-! ### An overlong invocation (60_exceptions.md R237) -/

theorem status_eq_overflow {s : State} (hphase : s.PHASE = .error) (hcode : s.ERRCODE = .overflow) :
    status s = 0x14#8 := by
  rw [← BitVec.toNat_inj, status_toNat_of_phase, hphase, hcode]
  rfl

/-- Settles O55: START's record update and then that of `raise`. -/
theorem overlongInvocationEndsInOverflow : Obligations.OverlongInvocationEndsInOverflow := fun s hin hp hlong =>
  ⟨raise .overflow (invocationStart s),
    (run_from_start hin hp 1).trans ((run_one _).trans (step_overlong (s := invocationStart s) rfl rfl hlong)),
    rfl, rfl, status_eq_overflow rfl rfl, rfl⟩

end Sys2Proof.Machine
end

section
/-! SUPPORT. PAD, PARSE and the stops of BLOAD, and the proofs of O23, O24, O33 and O34 from them. -/

namespace Sys2Proof.Machine

/-! ### BLOAD outside its spaces (20_memory.md R62, 93_implementation_defined.md U5) -/

theorem execBload_outOfRange {s : State} (h : s.MSG_LEN.toNat + 1 + s.KPAD.toNat + 8 < 64 * s.BI.toNat + 64) :
    execBload s = .fault .paddedIndexOutOfRange := by
  rw [execBload_eq, if_neg (mt (blockInPadded_iff s).1 (Nat.not_le.2 h))]

theorem execBload_beyondCap {s : State} (h : 64 * s.BI.toNat + 64 ≤ s.MSG_LEN.toNat + 1 + s.KPAD.toNat + 8)
    (hcap : ∃ j, j < 64 ∧ 64 * s.BI.toNat + j < s.MSG_LEN.toNat ∧ s.MSG_CAP.val ≤ 64 * s.BI.toNat + j) :
    execBload s = .fault .msgBeyondCap := by
  rw [execBload_eq, if_pos ((blockInPadded_iff s).2 h), if_pos ((blockReadsBeyondCap_iff s).2 hcap)]

/-- Settles O23: the two tests of BLOAD, in the order it makes them. -/
theorem bloadStopsOutsideItsSpaces : Obligations.BloadStopsOutsideItsSpaces :=
  fun _ => ⟨execBload_outOfRange, execBload_beyondCap⟩

/-! ### PARSE (30_encoding.md R105) -/

/-- Settles O34: PARSE is PARSECHK. -/
theorem parseCountsTheBlocks : Obligations.ParseCountsTheBlocks :=
  have ⟨_, hparsechk⟩ := parsechkCountsTheBlocks
  hparsechk

/-! ### PM as the Padded Message (41_padder.md R150, 42_block_parser.md R162) -/

/-- All bytes of PM in order are `pad(m)`. -/
theorem paddingComputed.padded_eq {s : State} (h : paddingComputed s) :
    Contract.padded (message s) = (List.range (s.MSG_LEN.toNat + 1 + s.KPAD.toNat + 8)).map (PM s) := by
  have hlen : (Contract.padded (message s)).length = s.MSG_LEN.toNat + 1 + s.KPAD.toNat + 8 := by
    rw [padded_length_eq, h.padded_end]
  refine List.ext_getElem (by rw [hlen, List.length_map, List.length_range]) fun i hi _ => ?_
  rw [List.getElem_map, List.getElem_range, h.PM_eq (hlen ▸ hi), List.getD_eq_getElem _ _ hi]

theorem paddingComputed.pad_eq {s : State} (h : paddingComputed s) :
    Contract.pad (message s) = .ok ((List.range (s.MSG_LEN.toNat + 1 + s.KPAD.toNat + 8)).map (PM s)) := by
  have ⟨⟨hlen, _⟩, _⟩ := h
  rw [Contract.pad_ok (by rwa [message_length]), h.padded_eq]

/-- `s` with PLEN at the padded length its other registers give, which PM does not read. -/
def withPaddedLength (s : State) : State :=
  { s with PLEN := BitVec.ofNat 62 (s.MSG_LEN.toNat + 1 + s.KPAD.toNat + 8) }

theorem withPaddedLength_paddingComputed {s : State} (hlen : s.MSG_LEN.toNat < 2 ^ 61)
    (hbits : s.LBITS.toNat = 8 * s.MSG_LEN.toNat) (hkpad : s.KPAD.toNat = padCount s.LBITS.toNat) :
    paddingComputed (withPaddedLength s) := by
  have hk := s.KPAD.isLt
  refine ⟨⟨hlen, hbits⟩, hkpad.trans ?_, Nat.mod_eq_of_lt (by omega)⟩
  rw [hbits, padCount_eight_mul]
  rfl

/-- Settles O24: PM does not read PLEN, and with PLEN at the padded length PM is the Padded Message byte by byte. -/
theorem paddedMessageIsPadOfTheMessage : Obligations.PaddedMessageIsPadOfTheMessage := by
  intro s hlen hbits hkpad
  have hcomputed := withPaddedLength_paddingComputed hlen hbits hkpad
  have hmessage : message (withPaddedLength s) = message s := rfl
  have hblock : paddedBlock (withPaddedLength s) = paddedBlock s := paddedBlock_congr rfl rfl rfl rfl fun _ _ _ _ => rfl
  refine ⟨hcomputed.pad_eq, fun hbi => ?_⟩
  rw [← hblock, ← hmessage]
  refine hcomputed.paddedBlock_eq ?_
  rwa [Contract.blockCount, message_length]

/-! ### PAD (30_encoding.md R105, 41_padder.md R140) -/

theorem execPad_overflow {s : State} (h : 2 ^ 61 ≤ s.MSG_LEN.toNat) : execPad s = .next (raise .overflow s) := by
  rw [execPad, execLenchk_overflow h]
  rfl

/-- PAD is its two operations when the first raises no error. -/
theorem execPad_of_next {s t : State} (h : execLenchk s = .next t) (hp : t.PHASE = .padlen) :
    execPad s = execPadlen t := by
  rw [execPad, h, chainUnlessError_next, if_neg (by rw [hp]; decide)]

/-- `t` is `s` but for the registers PAD writes when it raises no error. -/
def PadFrame (s t : State) : Prop :=
  t = { s with LBITS := t.LBITS, KPAD := t.KPAD, PLEN := t.PLEN, PHASE := t.PHASE }

theorem execPad_paddingComputed {s : State} (h : s.MSG_LEN.toNat < 2 ^ 61) :
    ∃ t, execPad s = .next t ∧ t.PHASE = .parsechk ∧ paddingComputed t ∧ PadFrame s t := by
  have hlenchk := execLenchk_ok h
  have hchecked : lengthChecked { s with LBITS := s.MSG_LEN <<< 3, PHASE := .padlen } := ⟨h, lengthBits_toNat h⟩
  obtain ⟨t, hpadlen, hphase, hcomputed, _⟩ := execPadlen_paddingComputed hchecked
  refine ⟨t, (execPad_of_next hlenchk rfl).trans hpadlen, hphase, hcomputed, ?_⟩
  rw [execPadlen_ok hchecked.padlenLength_mod] at hpadlen
  cases hpadlen
  rfl

/-- Settles O33: LENCHK decides whether PADLEN runs, and after it PM is the Padded Message. -/
theorem padPreparesThePaddedMessage : Obligations.PadPreparesThePaddedMessage := by
  refine fun s => ⟨execPad_overflow, fun hlen => ?inRange⟩
  case inRange =>
    obtain ⟨t, hpad, hphase, hcomputed, hframe⟩ := execPad_paddingComputed hlen
    have hL : t.MSG_LEN = s.MSG_LEN := by rw [hframe]
    have hM : t.MSG = s.MSG := by rw [hframe]
    have hplen : t.PLEN.toNat = s.MSG_LEN.toNat + 1 + t.KPAD.toNat + 8 := by
      have ⟨_, _, hplen⟩ := hcomputed
      rw [hplen, msgLength, hL]
    have hmessage : message t = message s := message_congr hL fun a _ => msgByte_congr hM a
    refine ⟨t, hpad, ?_, hplen, hphase, hframe, msgByte_congr hM⟩
    rw [← hmessage, hcomputed.pad_eq, hplen, hL]

end Sys2Proof.Machine
end

section
/-! SUPPORT. COMPRESS and SHA256 run at once, block after block, and the proofs of O35, O36 and O37 from them. -/

namespace Sys2Proof.Machine

/-! ### One block at once (30_encoding.md R105) -/

/-- An indexed run along a sequence of states, each the next one's predecessor. -/
theorem runIndices_of_path {f : Nat → State → Result} {S : Nat → State} {m n : Nat}
    (h : ∀ i, m ≤ i → i < m + n → f i (S i) = .next (S (i + 1))) : runIndices f m n (S m) = .next (S (m + n)) := by
  induction n with
  | zero => rfl
  | succ n ih =>
    rw [runIndices_succ, ih fun i hm hi => h i hm (by omega), chain_next, h (m + n) (by omega) (by omega),
      Nat.add_assoc]

/-- The body of COMPRESS's loop passes through the same states as the controller's 131 steps. -/
theorem runBlock_eq {s : State} (hpadded : 64 * s.BI.toNat + 64 ≤ s.MSG_LEN.toNat + 1 + s.KPAD.toNat + 8)
    (hcap : s.MSG_LEN.toNat ≤ s.MSG_CAP.val) : runBlock s = .next (blockEndState s) := by
  have hwload : runIndices (fun t => execWload (BitVec.ofNat 4 t)) 0 16 (schedulingState s 0) =
      .next (schedulingState s 16) := by
    refine runIndices_of_path fun i _ hi => ?_
    have ht : (BitVec.ofNat 4 i).toNat = i := Nat.mod_eq_of_lt (by omega)
    have hexec := execWload_schedulingState s (BitVec.ofNat 4 i)
    rwa [ht] at hexec
  have hwexp : runIndices (fun t => execWexp (BitVec.ofNat 6 t)) 16 48 (schedulingState s 16) =
      .next (schedulingState s 64) := by
    refine runIndices_of_path fun i hm hi => ?_
    have ht : (BitVec.ofNat 6 i).toNat = i := Nat.mod_eq_of_lt (by omega)
    have hexec := execWexp_schedulingState s (t := BitVec.ofNat 6 i) (by omega)
    rwa [ht] at hexec
  have hround : runIndices (fun t => execRound (BitVec.ofNat 6 t)) 0 64 (roundState s 0) =
      .next (roundState s 64) := by
    refine runIndices_of_path fun i _ hi => ?_
    have ht : (BitVec.ofNat 6 i).toNat = i := Nat.mod_eq_of_lt (by omega)
    have hexec := execRound_roundState s (BitVec.ofNat 6 i)
    rwa [ht] at hexec
  rw [runBlock, execBload_schedulingState hpadded hcap, chain_next, hwload, chain_next, hwexp, chain_next,
    execVinit_schedulingState, chain_next, hround, chain_next, execHmix_roundState]

/-! ### The loop of COMPRESS (45_compressor_state.md R193) -/

/-- Blocks BI to BI + n - 1 of PM. -/
def blocksOfPM (s : State) (n : Nat) : List Contract.Block :=
  (List.range n).map fun j => Vector.ofFn fun i : Fin 64 => PM s (64 * (s.BI.toNat + j) + i.val)

theorem blocksOfPM_succ (s : State) (n : Nat) : blocksOfPM s (n + 1) =
    blocksOfPM s n ++ [Vector.ofFn fun i : Fin 64 => PM s (64 * (s.BI.toNat + n) + i.val)] := by
  rw [blocksOfPM, List.range_succ, List.map_append]
  rfl

/-- `t` is `s` but for the registers the operations of COMPRESS write. -/
def CompressFrame (s t : State) : Prop :=
  t = { s with H := t.H, v := t.v, W := t.W, BLK := t.BLK, DIGEST := t.DIGEST, BI := t.BI, T := t.T, PHASE := t.PHASE }

namespace CompressFrame

theorem trans {s t u : State} (hst : CompressFrame s t) (htu : CompressFrame t u) : CompressFrame s u := by
  rw [CompressFrame] at hst htu ⊢
  conv_lhs => rw [htu, hst]

section
variable {s t : State} (h : CompressFrame s t)
include h

theorem MSG_LEN_eq : t.MSG_LEN = s.MSG_LEN := by rw [h]

theorem MSG_CAP_eq : t.MSG_CAP = s.MSG_CAP := by rw [h]

theorem MSG_eq : t.MSG = s.MSG := by rw [h]

theorem KPAD_eq : t.KPAD = s.KPAD := by rw [h]

theorem LBITS_eq : t.LBITS = s.LBITS := by rw [h]

theorem NB_eq : t.NB = s.NB := by rw [h]

theorem PM_eq (i : Nat) : PM t i = PM s i :=
  PM_congr h.MSG_LEN_eq h.KPAD_eq h.LBITS_eq fun _ => msgByte_congr h.MSG_eq i

theorem invocationFrame : InvocationFrame s t := by
  have hplen : t.PLEN = s.PLEN := by rw [h]
  rw [InvocationFrame, hplen, h.KPAD_eq, h.LBITS_eq, h.NB_eq]
  exact h

end

end CompressFrame

/-- In a COMPRESS whose loop began in `s`, the state `t` with `n` blocks compressed. -/
structure LoopedBlocks (s : State) (n : Nat) (t : State) : Prop where
  frame : CompressFrame s t
  index : t.BI.toNat = s.BI.toNat + n
  hash : t.H = (blocksOfPM s n).foldl Contract.CB s.H

/-- The block BLOAD loads after `n` blocks is the next one of PM. -/
theorem LoopedBlocks.paddedBlock_eq {s t : State} {n : Nat} (h : LoopedBlocks s n t) :
    paddedBlock t = Vector.ofFn fun i : Fin 64 => PM s (64 * (s.BI.toNat + n) + i.val) := by
  apply vector_ext_get
  intro j
  rw [paddedBlock_get, blockBase, h.index, h.frame.PM_eq, vector_get_ofFn]

/-- One pass of the loop. -/
theorem LoopedBlocks.next {s t : State} {n : Nat} (h : LoopedBlocks s n t) (hwrap : s.BI.toNat + n + 1 < 2 ^ 56) :
    LoopedBlocks s (n + 1) (blockEndState t) where
  frame := h.frame.trans rfl
  index := by
    rw [show (blockEndState t).BI = t.BI + 1 from rfl, toNat_add_one _ (by rw [h.index]; exact hwrap), h.index]
    rfl
  hash := by
    rw [blocksOfPM_succ, List.foldl_append, ← h.hash, ← h.paddedBlock_eq]
    rfl

/-- The loop over the blocks from BI on, `n` of them. -/
theorem runBlocks_loopedBlocks {s : State} {n : Nat} (hwrap : s.BI.toNat + n < 2 ^ 56)
    (hpadded : 64 * (s.BI.toNat + n) ≤ s.MSG_LEN.toNat + 1 + s.KPAD.toNat + 8)
    (hcap : s.MSG_LEN.toNat ≤ s.MSG_CAP.val) : ∃ t, runBlocks n s = .next t ∧ LoopedBlocks s n t := by
  induction n with
  | zero => exact ⟨s, rfl, rfl, rfl, rfl⟩
  | succ n ih =>
    obtain ⟨t, hrun, ht⟩ := ih (by omega) (by omega)
    have hblock : runBlock t = .next (blockEndState t) := by
      refine runBlock_eq ?_ (by rwa [ht.frame.MSG_LEN_eq, ht.frame.MSG_CAP_eq])
      rw [ht.index, ht.frame.MSG_LEN_eq, ht.frame.KPAD_eq]
      omega
    exact ⟨_, by rw [runBlocks, runTimes_succ, ← runBlocks, hrun, chain_next, hblock], ht.next (by omega)⟩

theorem blocksLeft_eq {s : State} (h : s.BI.toNat ≤ s.NB.toNat) : blocksLeft s = s.NB.toNat - s.BI.toNat :=
  BitVec.toNat_sub_of_le (BitVec.le_def.2 h)

/-- What HINIT leaves. -/
def hinitState (s : State) : State := { s with H := H0, PHASE := if s.BI = s.NB then .dout else .bload }

theorem execHinit_eq (s : State) : execHinit s = .next (hinitState s) := rfl

/-- COMPRESS in terms of the contract: DOUT serialises the blocks folded into `H0`. -/
theorem execCompress_contract {s : State} (hle : s.BI.toNat ≤ s.NB.toNat)
    (hpadded : 64 * s.NB.toNat ≤ s.MSG_LEN.toNat + 1 + s.KPAD.toNat + 8) (hcap : s.MSG_LEN.toNat ≤ s.MSG_CAP.val) :
    ∃ t, execCompress s = .next t ∧
      t.DIGEST.toList = Contract.compress (blocksOfPM s (s.NB.toNat - s.BI.toNat)) ∧ t.PHASE = .done ∧ t.BI = s.NB ∧
      CompressFrame s t := by
  have hnb := s.NB.isLt
  have hbi : (hinitState s).BI = s.BI := rfl
  have hlast : s.BI.toNat + (s.NB.toNat - s.BI.toNat) = s.NB.toNat := by omega
  obtain ⟨t, hrun, ht⟩ := runBlocks_loopedBlocks (s := hinitState s) (n := s.NB.toNat - s.BI.toNat)
    (by rw [hbi, hlast]; exact hnb) (by rwa [hbi, hlast]) hcap
  have hframe : CompressFrame s (hinitState s) := rfl
  refine ⟨{ t with DIGEST := digestBytes t.H, PHASE := .done }, ?run, ?digest, rfl, ?index,
    (hframe.trans ht.frame).trans rfl⟩
  case run => rw [execCompress, execHinit_eq, chain_next, blocksLeft_eq hle, hrun]; rfl
  case digest => rw [digestBytes_toList, ht.hash, Contract.compress]; rfl
  case index => exact BitVec.eq_of_toNat_eq (ht.index.trans hlast)

/-- Settles O35: the loop folds one block of PM after another into the `H0` of HINIT, and DOUT serialises the result. -/
theorem compressFoldsTheBlocks : Obligations.CompressFoldsTheBlocks := by
  intro s hle hpadded hcap
  obtain ⟨t, hrun, hdigest, hdone, hbi, hframe⟩ := execCompress_contract hle hpadded hcap
  exact ⟨t, hrun, hdigest, hdone, hbi, hframe, msgByte_congr hframe.MSG_eq⟩

/-! ### SHA256 (46_top_level.md R200) -/

theorem execSha256_overflow {s : State} (h : 2 ^ 61 ≤ s.MSG_LEN.toNat) :
    execSha256 s = .next (raise .overflow s) := by
  rw [execSha256, execPad_overflow h]
  rfl

/-- SHA256 comes to COMPRESS with the blocks counted, and the controller with nothing pending comes to the same state
in three steps. -/
theorem execSha256_eq_compress {s : State} (hlen : s.MSG_LEN.toNat < 2 ^ 61) :
    ∃ t, execSha256 s = execCompress t ∧ t.PHASE = .hinit ∧ blocksCounted t ∧ t.BI = 0 ∧ InvocationFrame s t ∧
      (s.inputs = [] → s.PHASE = .lenchk → runTimes step 3 s = .next t) := by
  obtain ⟨t1, hlenchk, hp1, hchecked, hf1⟩ := execLenchk_lengthChecked hlen
  obtain ⟨t2, hpadlen, hp2, hcomputed, hf2⟩ := execPadlen_paddingComputed hchecked
  obtain ⟨t3, hparsechk, hp3, hcounted, hbi, hf3⟩ := execParsechk_blocksCounted hcomputed
  have hframe2 : InvocationFrame s t2 := hf1.trans hf2
  refine ⟨t3, ?expansion, hp3, hcounted, hbi, hframe2.trans hf3, fun hin hp => ?steps⟩
  case expansion =>
    have hparse : execParse t2 = .next t3 := hparsechk
    rw [execSha256, execPad_of_next hlenchk hp1, hpadlen, chainUnlessError_next, if_neg (by rw [hp2]; decide), hparse,
      chainUnlessError_next, if_neg (by rw [hp3]; decide)]
  case steps =>
    rw [show 3 = 1 + (1 + 1) from rfl, run_add, run_one, step_lenchk hin hp, hlenchk, chain_next,
      run_add, run_one, step_padlen (hf1.inputs_eq.trans hin) hp1, hpadlen, chain_next,
      run_one, step_parsechk (hframe2.inputs_eq.trans hin) hp2, hparsechk]

/-- After PADLEN the blocks of PM from the first on are those of the Padded Message. -/
theorem paddingComputed.blocksOfPM_eq {s : State} (h : paddingComputed s) (hbi : s.BI = 0) {n : Nat}
    (hn : n ≤ Contract.blockCount (message s)) : blocksOfPM s n = Contract.firstBlocks (message s) n := by
  have hend := h.padded_end
  refine List.map_congr_left fun j hj => vector_ext_get fun i => ?_
  have hj := List.mem_range.1 hj
  have hzero : s.BI.toNat + j = j := by rw [hbi]; exact Nat.zero_add j
  rw [vector_get_ofFn, Contract.block_get, hzero, h.PM_eq (by omega)]

/-- Settles O36: PAD and PARSE count the blocks, which are those of the contract, and COMPRESS folds them. -/
theorem sha256ComputesTheDigest : Obligations.Sha256ComputesTheDigest := by
  refine fun s => ⟨execSha256_overflow, fun hlen hcap => ?inRange⟩
  case inRange =>
    obtain ⟨t, hsha256, _, hcounted, hbi, hst, _⟩ := execSha256_eq_compress hlen
    have ⟨hcomputed, _⟩ := hcounted
    have hnb := hcounted.nb_eq
    have hend := hcomputed.padded_end
    have hzero : t.BI.toNat = 0 := by rw [hbi]; rfl
    obtain ⟨u, hcompress, hdigest, hdone, _, htu⟩ := execCompress_contract (s := t) (by omega) (by omega)
      (by rwa [hst.MSG_LEN_eq, hst.MSG_CAP_eq])
    have hsu : InvocationFrame s u := hst.trans htu.invocationFrame
    refine ⟨u, hsha256.trans hcompress, ?digest, hdone, hsu, msgByte_congr hsu.MSG_eq⟩
    case digest =>
      rw [hdigest, hzero, Nat.sub_zero, hcomputed.blocksOfPM_eq hbi (le_of_eq hnb), hnb, hst.message_eq]
      exact Contract.sha256_ok (by rwa [message_length])

/-! ### The controller and the expansion (46_top_level.md R202) -/

/-- After fewer than all blocks of an invocation, what the next block needs. -/
theorem AfterBlocks.ready {s t : State} {n : Nat} (h : AfterBlocks s n t) (hcap : s.MSG_LEN.toNat ≤ s.MSG_CAP.val)
    (hn : n < Contract.blockCount (message s)) :
    t.PHASE = .bload ∧ 64 * t.BI.toNat + 64 ≤ t.MSG_LEN.toNat + 1 + t.KPAD.toNat + 8 ∧
      t.MSG_LEN.toNat ≤ t.MSG_CAP.val := by
  have hnb := h.counted.nb_eq
  have ⟨hcomputed, _⟩ := h.counted
  have hend := hcomputed.padded_end
  have hindex := h.index
  rw [h.frame.message_eq] at hnb hend
  refine ⟨h.phase.trans (if_neg (by omega)), by omega, ?_⟩
  rwa [h.frame.MSG_LEN_eq, h.frame.MSG_CAP_eq]

/-- Over the blocks of an invocation the controller's steps are COMPRESS's loop. -/
theorem AfterBlocks.run_blocks_eq {s t : State} (h : AfterBlocks s 0 t) (hin : s.inputs = [])
    (hcap : s.MSG_LEN.toNat ≤ s.MSG_CAP.val) {n : Nat} (hn : n ≤ Contract.blockCount (message s)) :
    runTimes step (131 * n) t = runBlocks n t := by
  induction n with
  | zero => rfl
  | succ n ih =>
    obtain ⟨u, hrun, hu⟩ := h.run_blocks hin hcap (n := n) (by omega)
    obtain ⟨hp, hpadded, hcapu⟩ := hu.ready hcap (by omega)
    have hblock : runTimes step 131 u = runBlock u :=
      (run_block (hu.frame.inputs_eq.trans hin) hp hpadded hcapu).trans (runBlock_eq hpadded hcapu).symm
    have hloop : runBlocks n t = .next u := (ih (by omega)).symm.trans hrun
    rw [Nat.mul_succ, run_add, hrun, chain_next, hblock, runBlocks, runTimes_succ, ← runBlocks, hloop, chain_next]

/-- Settles O37: three steps to HINIT, HINIT, the loop block by block, and DOUT. -/
theorem controllerRunsTheExpansionOfSha256 : Obligations.ControllerRunsTheExpansionOfSha256 := by
  intro s hin hp hlen hcap
  obtain ⟨t, hsha256, hphase, hcounted, hbi, hframe, hsteps⟩ := execSha256_eq_compress hlen
  obtain ⟨u, hhinit, hafter⟩ := execHinit_afterBlocks hcounted hbi
  have hafter := hafter.of_frame hframe
  have hcount : Contract.blockCount (message s) = (s.MSG_LEN.toNat + 8) / 64 + 1 := by
    rw [Contract.blockCount, message_length]
  obtain ⟨w, hblocks, hw⟩ := hafter.run_blocks hin hcap (le_refl _)
  have hloop := (hafter.run_blocks_eq hin hcap (le_refl _)).symm.trans hblocks
  have hnb : blocksLeft t = Contract.blockCount (message s) := by
    have hzero : t.BI.toNat = 0 := by rw [hbi]; rfl
    rw [blocksLeft_eq (by omega), hzero, hcounted.nb_eq, hframe.message_eq, Nat.sub_zero]
  have hdout : w.PHASE = .dout :=
    hw.phase.trans (if_pos (by rw [hw.counted.nb_eq, hw.frame.message_eq]))
  rw [← hcount, show exec .sha256 s = execCompress t from hsha256, execCompress, hhinit, chain_next, hnb, hloop,
    chain_next,
    show 5 + 131 * Contract.blockCount (message s) = 3 + (1 + (131 * Contract.blockCount (message s) + 1)) by omega,
    run_add, hsteps hin hp, chain_next, run_add, run_one, step_hinit (hframe.inputs_eq.trans hin) hphase, hhinit,
    chain_next, run_add, hblocks, chain_next, run_one, step_dout (hw.frame.inputs_eq.trans hin) hdout]

end Sys2Proof.Machine
end

section
/-! SUPPORT. The registers each operation may write, and the proofs of O48 and O49 from them. -/

namespace Sys2Proof.Machine

/-! ### What each operation writes (10_state.md R21, column "Written by") -/

section
variable {s t : State}

theorem execStart_writes (h : execStart s = .next t) : ∃ P e T D n,
    t = { s with PHASE := P, ERRCODE := e, T := T, DIGEST := D, draws := n } := by
  by_cases hp : s.PHASE = .idle ∨ s.PHASE = .done ∨ s.PHASE = .error
  · cases (execStart_accepted hp).symm.trans h
    exact ⟨_, _, _, _, _, rfl⟩
  · cases (execStart_ignored hp).symm.trans h
    exact ⟨_, _, _, _, _, rfl⟩

theorem execLenchk_writes (h : execLenchk s = .next t) : ∃ l P e,
    t = { s with LBITS := l, PHASE := P, ERRCODE := e } := by
  rcases Nat.lt_or_ge s.MSG_LEN.toNat (2 ^ 61) with hlen | hlong
  · cases (execLenchk_ok hlen).symm.trans h
    exact ⟨_, _, _, rfl⟩
  · cases (execLenchk_overflow hlong).symm.trans h
    exact ⟨_, _, _, rfl⟩

theorem execPadlen_writes (h : execPadlen s = .next t) : ∃ k p P e,
    t = { s with KPAD := k, PLEN := p, PHASE := P, ERRCODE := e } := by
  by_cases hmod : padlenLength s % 64 = 0
  · cases (execPadlen_ok hmod).symm.trans h
    exact ⟨_, _, _, _, rfl⟩
  · cases (execPadlen_error hmod).symm.trans h
    exact ⟨_, _, _, _, rfl⟩

theorem execParsechk_writes (h : execParsechk s = .next t) : ∃ n b P e,
    t = { s with NB := n, BI := b, PHASE := P, ERRCODE := e } := by
  by_cases hmod : s.PLEN.toNat % 64 = 0
  · cases (execParsechk_ok hmod).symm.trans h
    exact ⟨_, _, _, _, rfl⟩
  · cases (execParsechk_error hmod).symm.trans h
    exact ⟨_, _, _, _, rfl⟩

theorem execHinit_writes (h : execHinit s = .next t) : ∃ H P, t = { s with H := H, PHASE := P } := by
  cases h
  exact ⟨_, _, rfl⟩

theorem execBload_writes (h : execBload s = .next t) : ∃ B T P, t = { s with BLK := B, T := T, PHASE := P } := by
  rw [execBload_eq] at h
  split_ifs at h
  cases h
  exact ⟨_, _, _, rfl⟩

theorem execWload_writes {i : BitVec 4} (h : execWload i s = .next t) : ∃ W T P,
    t = { s with W := W, T := T, PHASE := P } := by
  cases (execWload_eq i s).symm.trans h
  exact ⟨_, _, _, rfl⟩

theorem execWexp_writes {i : BitVec 6} (h : execWexp i s = .next t) : ∃ W T P,
    t = { s with W := W, T := T, PHASE := P } := by
  by_cases hi : 16 ≤ i.toNat
  · cases (execWexp_eq hi s).symm.trans h
    exact ⟨_, _, _, rfl⟩
  · cases (execWexp_stuck (Nat.lt_of_not_le hi) s).symm.trans h

theorem execVinit_writes (h : execVinit s = .next t) : ∃ v T P, t = { s with v := v, T := T, PHASE := P } := by
  cases h
  exact ⟨_, _, _, rfl⟩

theorem execRound_writes {i : BitVec 6} (h : execRound i s = .next t) : ∃ v T P,
    t = { s with v := v, T := T, PHASE := P } := by
  cases (execRound_eq i s).symm.trans h
  exact ⟨_, _, _, rfl⟩

theorem execHmix_writes (h : execHmix s = .next t) : ∃ H b P, t = { s with H := H, BI := b, PHASE := P } := by
  cases h
  exact ⟨_, _, _, rfl⟩

theorem execDout_writes (h : execDout s = .next t) : ∃ D P, t = { s with DIGEST := D, PHASE := P } := by
  cases h
  exact ⟨_, _, rfl⟩

end

/-- Settles O48: of the registers an operation does not write, the new value is the old one. -/
theorem onlyTheListedOperationsWriteARegister : Obligations.OnlyTheListedOperationsWriteARegister := by
  intro i s t hpad hparse hcompress hsha256 h
  cases i with
  | start => obtain ⟨_, _, _, _, _, rfl⟩ := execStart_writes h; simp
  | lenchk => obtain ⟨_, _, _, rfl⟩ := execLenchk_writes h; simp
  | padlen => obtain ⟨_, _, _, _, rfl⟩ := execPadlen_writes h; simp
  | parsechk => obtain ⟨_, _, _, _, rfl⟩ := execParsechk_writes h; simp
  | hinit => obtain ⟨_, _, rfl⟩ := execHinit_writes h; simp
  | bload => obtain ⟨_, _, _, rfl⟩ := execBload_writes h; simp
  | wload => obtain ⟨_, _, _, rfl⟩ := execWload_writes h; simp
  | wexp => obtain ⟨_, _, _, rfl⟩ := execWexp_writes h; simp
  | vinit => obtain ⟨_, _, _, rfl⟩ := execVinit_writes h; simp
  | round => obtain ⟨_, _, _, rfl⟩ := execRound_writes h; simp
  | hmix => obtain ⟨_, _, _, rfl⟩ := execHmix_writes h; simp
  | dout => obtain ⟨_, _, rfl⟩ := execDout_writes h; simp
  | idle | done | error => cases h; simp
  | reservedE | reservedF => cases h
  | pad => exact absurd rfl hpad
  | parse => exact absurd rfl hparse
  | compress => exact absurd rfl hcompress
  | sha256 => exact absurd rfl hsha256

/-! ### The host's side of the state (20_memory.md R61, 10_state.md R28) -/

/-- The Message, its length, the platform's size and the model's own host fields are as before. -/
structure HostSideKept (s t : State) : Prop where
  MSG_eq : t.MSG = s.MSG
  MSG_LEN_eq : t.MSG_LEN = s.MSG_LEN
  MSG_CAP_eq : t.MSG_CAP = s.MSG_CAP
  inputs_eq : t.inputs = s.inputs
  reads_eq : t.reads = s.reads

theorem HostSideKept.refl (s : State) : HostSideKept s s := ⟨rfl, rfl, rfl, rfl, rfl⟩

theorem HostSideKept.trans {s t u : State} (hst : HostSideKept s t) (htu : HostSideKept t u) : HostSideKept s u :=
  ⟨htu.MSG_eq.trans hst.MSG_eq, htu.MSG_LEN_eq.trans hst.MSG_LEN_eq, htu.MSG_CAP_eq.trans hst.MSG_CAP_eq,
    htu.inputs_eq.trans hst.inputs_eq, htu.reads_eq.trans hst.reads_eq⟩

/-- Every state `f` leaves has the host's side of the one it began in. -/
def KeepsHostSide (f : State → Result) : Prop := ∀ s t : State, f s = .next t → HostSideKept s t

namespace KeepsHostSide

theorem chain {f g : State → Result} (hf : KeepsHostSide f) (hg : KeepsHostSide g) :
    KeepsHostSide fun s => Machine.chain (f s) g := by
  intro s t h
  obtain ⟨u, hu, ht⟩ := chain_eq_next.1 h
  exact (hf _ _ hu).trans (hg _ _ ht)

theorem chainUnlessError {f g : State → Result} (hf : KeepsHostSide f) (hg : KeepsHostSide g) :
    KeepsHostSide fun s => Machine.chainUnlessError (f s) g := by
  intro s t h
  obtain ⟨u, hu, ⟨_, rfl⟩ | ⟨_, ht⟩⟩ := chainUnlessError_eq_next.1 h
  · exact hf _ _ hu
  · exact (hf _ _ hu).trans (hg _ _ ht)

theorem runIndices {f : Nat → State → Result} (hf : ∀ i, KeepsHostSide (f i)) (m n : Nat) :
    KeepsHostSide (Machine.runIndices f m n) := by
  induction n generalizing m with
  | zero => intro s t h; cases h; exact .refl s
  | succ n ih => exact chain (hf m) (ih (m + 1))

theorem runTimes {f : State → Result} (hf : KeepsHostSide f) (n : Nat) : KeepsHostSide (Machine.runTimes f n) := by
  induction n with
  | zero => intro s t h; cases h; exact .refl s
  | succ n ih => exact chain hf ih

end KeepsHostSide

/-! None of the registers a single operation writes is on the host's side. -/

theorem execStart_keepsHostSide : KeepsHostSide execStart := by
  intro s t h
  obtain ⟨_, _, _, _, _, rfl⟩ := execStart_writes h
  exact ⟨rfl, rfl, rfl, rfl, rfl⟩

theorem execLenchk_keepsHostSide : KeepsHostSide execLenchk := by
  intro s t h
  obtain ⟨_, _, _, rfl⟩ := execLenchk_writes h
  exact ⟨rfl, rfl, rfl, rfl, rfl⟩

theorem execPadlen_keepsHostSide : KeepsHostSide execPadlen := by
  intro s t h
  obtain ⟨_, _, _, _, rfl⟩ := execPadlen_writes h
  exact ⟨rfl, rfl, rfl, rfl, rfl⟩

theorem execParsechk_keepsHostSide : KeepsHostSide execParsechk := by
  intro s t h
  obtain ⟨_, _, _, _, rfl⟩ := execParsechk_writes h
  exact ⟨rfl, rfl, rfl, rfl, rfl⟩

theorem execHinit_keepsHostSide : KeepsHostSide execHinit := by
  intro s t h
  obtain ⟨_, _, rfl⟩ := execHinit_writes h
  exact ⟨rfl, rfl, rfl, rfl, rfl⟩

theorem execBload_keepsHostSide : KeepsHostSide execBload := by
  intro s t h
  obtain ⟨_, _, _, rfl⟩ := execBload_writes h
  exact ⟨rfl, rfl, rfl, rfl, rfl⟩

theorem execWload_keepsHostSide (i : BitVec 4) : KeepsHostSide (execWload i) := by
  intro s t h
  obtain ⟨_, _, _, rfl⟩ := execWload_writes h
  exact ⟨rfl, rfl, rfl, rfl, rfl⟩

theorem execWexp_keepsHostSide (i : BitVec 6) : KeepsHostSide (execWexp i) := by
  intro s t h
  obtain ⟨_, _, _, rfl⟩ := execWexp_writes h
  exact ⟨rfl, rfl, rfl, rfl, rfl⟩

theorem execVinit_keepsHostSide : KeepsHostSide execVinit := by
  intro s t h
  obtain ⟨_, _, _, rfl⟩ := execVinit_writes h
  exact ⟨rfl, rfl, rfl, rfl, rfl⟩

theorem execRound_keepsHostSide (i : BitVec 6) : KeepsHostSide (execRound i) := by
  intro s t h
  obtain ⟨_, _, _, rfl⟩ := execRound_writes h
  exact ⟨rfl, rfl, rfl, rfl, rfl⟩

theorem execHmix_keepsHostSide : KeepsHostSide execHmix := by
  intro s t h
  obtain ⟨_, _, _, rfl⟩ := execHmix_writes h
  exact ⟨rfl, rfl, rfl, rfl, rfl⟩

theorem execDout_keepsHostSide : KeepsHostSide execDout := by
  intro s t h
  obtain ⟨_, _, rfl⟩ := execDout_writes h
  exact ⟨rfl, rfl, rfl, rfl, rfl⟩

/-! The composed operations are sequences of single ones (30_encoding.md R105). -/

theorem execPad_keepsHostSide : KeepsHostSide execPad :=
  execLenchk_keepsHostSide.chainUnlessError execPadlen_keepsHostSide

theorem runBlock_keepsHostSide : KeepsHostSide runBlock :=
  execBload_keepsHostSide.chain <| (KeepsHostSide.runIndices (fun _ => execWload_keepsHostSide _) 0 16).chain <|
    (KeepsHostSide.runIndices (fun _ => execWexp_keepsHostSide _) 16 48).chain <| execVinit_keepsHostSide.chain <|
    (KeepsHostSide.runIndices (fun _ => execRound_keepsHostSide _) 0 64).chain execHmix_keepsHostSide

/-- The number of blocks is fixed by the state COMPRESS begins in. -/
theorem execCompress_keepsHostSide : KeepsHostSide execCompress := by
  intro s
  have hloop := (runBlock_keepsHostSide.runTimes (blocksLeft s)).chain execDout_keepsHostSide
  exact execHinit_keepsHostSide.chain hloop s

theorem execSha256_keepsHostSide : KeepsHostSide execSha256 :=
  execPad_keepsHostSide.chainUnlessError (execParsechk_keepsHostSide.chainUnlessError execCompress_keepsHostSide)

theorem exec_keepsHostSide (i : Instr) : KeepsHostSide (exec i) := by
  cases i with
  | start => exact execStart_keepsHostSide
  | lenchk => exact execLenchk_keepsHostSide
  | padlen => exact execPadlen_keepsHostSide
  | parsechk => exact execParsechk_keepsHostSide
  | hinit => exact execHinit_keepsHostSide
  | bload => exact execBload_keepsHostSide
  | wload i => exact execWload_keepsHostSide i
  | wexp i => exact execWexp_keepsHostSide i
  | vinit => exact execVinit_keepsHostSide
  | round i => exact execRound_keepsHostSide i
  | hmix => exact execHmix_keepsHostSide
  | dout => exact execDout_keepsHostSide
  | idle | done | error => intro s t h; cases h; exact .refl s
  | reservedE | reservedF => intro s t h; cases h
  | pad => exact execPad_keepsHostSide
  | parse => exact execParsechk_keepsHostSide
  | compress => exact execCompress_keepsHostSide
  | sha256 => exact execSha256_keepsHostSide

/-- Settles O49: no operation writes a register of the host's side, and sequences of operations keep it too. -/
theorem engineNeverWritesTheMessage : Obligations.EngineNeverWritesTheMessage := by
  intro i s t h
  obtain ⟨hmsg, hlen, hcap, hin, hreads⟩ := exec_keepsHostSide i s t h
  exact ⟨hmsg, msgByte_congr hmsg, hlen, hcap, hin, hreads⟩

end Sys2Proof.Machine
end

section
/-! SUPPORT. The phase and the index each operation leaves, and the proof of O50 from them. -/

namespace Sys2Proof.Machine

/-- What an operation over 64 indices leaves in `T` and `PHASE`, from phase `p` on to `q`. -/
theorem index_transfer (t T : BitVec 6) (p q : Phase) :
    if t.toNat = 63 then (if t = 63 then T else t + 1) = T ∧ (if t = 63 then q else p) = q
    else (if t = 63 then T else t + 1).toNat = t.toNat + 1 ∧ (if t = 63 then q else p) = p := by
  by_cases hlast : t.toNat = 63
  · rw [if_pos hlast]
    exact index_last T hlast
  · rw [if_neg hlast]
    exact index_next T hlast

section
variable {s t : State}

/-! ### The transfers of 46_top_level.md R202, operation by operation -/

theorem execLenchk_transfer (h : execLenchk s = .next t) :
    t.PHASE = (if 2 ^ 61 ≤ s.MSG_LEN.toNat then .error else .padlen) ∧ t.T = s.T := by
  rcases Nat.lt_or_ge s.MSG_LEN.toNat (2 ^ 61) with hlen | hlong
  · cases (execLenchk_ok hlen).symm.trans h
    exact ⟨(if_neg (Nat.not_le.2 hlen)).symm, rfl⟩
  · cases (execLenchk_overflow hlong).symm.trans h
    exact ⟨(if_pos hlong).symm, rfl⟩

theorem execPadlen_transfer (h : execPadlen s = .next t) :
    t.PHASE = (if padlenLength s % 64 ≠ 0 then .error else .parsechk) ∧ t.T = s.T := by
  by_cases hmod : padlenLength s % 64 = 0
  · cases (execPadlen_ok hmod).symm.trans h
    exact ⟨(if_neg (not_not.2 hmod)).symm, rfl⟩
  · cases (execPadlen_error hmod).symm.trans h
    exact ⟨(if_pos hmod).symm, rfl⟩

theorem execParsechk_transfer (h : execParsechk s = .next t) :
    t.PHASE = (if s.PLEN.toNat % 64 ≠ 0 then .error else .hinit) ∧ t.T = s.T := by
  by_cases hmod : s.PLEN.toNat % 64 = 0
  · cases (execParsechk_ok hmod).symm.trans h
    exact ⟨(if_neg (not_not.2 hmod)).symm, rfl⟩
  · cases (execParsechk_error hmod).symm.trans h
    exact ⟨(if_pos hmod).symm, rfl⟩

theorem execBload_transfer (h : execBload s = .next t) : t.PHASE = .wload ∧ t.T = 0 := by
  rw [execBload_eq] at h
  split_ifs at h
  cases h
  exact ⟨rfl, rfl⟩

theorem execWload_transfer {i : BitVec 4} (h : execWload i s = .next t) :
    t.T.toNat = i.toNat + 1 ∧ t.PHASE = if i.toNat = 15 then .wexp else .wload := by
  cases (execWload_eq i s).symm.trans h
  exact ⟨wload_next_toNat i, if_congr (eq_fifteen_iff i) rfl rfl⟩

theorem execWexp_transfer {i : BitVec 6} (h : execWexp i s = .next t) : 16 ≤ i.toNat ∧
    if i.toNat = 63 then t.T = s.T ∧ t.PHASE = .vinit else t.T.toNat = i.toNat + 1 ∧ t.PHASE = .wexp := by
  by_cases hi : 16 ≤ i.toNat
  · cases (execWexp_eq hi s).symm.trans h
    exact ⟨hi, index_transfer i s.T .wexp .vinit⟩
  · cases (execWexp_stuck (Nat.lt_of_not_le hi) s).symm.trans h

theorem execRound_transfer {i : BitVec 6} (h : execRound i s = .next t) :
    if i.toNat = 63 then t.T = s.T ∧ t.PHASE = .hmix else t.T.toNat = i.toNat + 1 ∧ t.PHASE = .round := by
  cases (execRound_eq i s).symm.trans h
  exact index_transfer i s.T .round .hmix

/-- HMIX goes on to one of two phases, and while BI does not wrap the test for the last block is one of numbers. -/
theorem execHmix_transfer (h : execHmix s = .next t) : (t.PHASE = .dout ∨ t.PHASE = .bload) ∧
    (s.BI.toNat + 1 < 2 ^ 56 → t.PHASE = if s.BI.toNat + 1 = s.NB.toNat then .dout else .bload) ∧ t.T = s.T := by
  cases h
  exact ⟨ite_eq_or_eq _ _ _, fun hbi => if_congr (blockCount_succ_eq_iff hbi) rfl rfl, rfl⟩

end

/-- Below 16 an index has the four bits of WLOAD's operand. -/
theorem setWidth_four_toNat {T : BitVec 6} (h : T.toNat < 16) : (T.setWidth 4).toNat = T.toNat := by
  rw [BitVec.toNat_setWidth]
  exact Nat.mod_eq_of_lt h

/-- Settles O50: the engine's step is the operation of its phase, and each operation names the phase it leads to. -/
theorem phaseTransitions : Obligations.PhaseTransitions := by
  intro s t hin h
  rw [step_of_no_input hin, engineStep_eq] at h
  cases hp : s.PHASE <;> simp only [hp] at h ⊢
  case idle | done | error => cases h; exact ⟨hp, rfl⟩
  case lenchk => exact execLenchk_transfer h
  case padlen =>
    obtain ⟨hphase, hT⟩ := execPadlen_transfer h
    refine ⟨fun k hk => ?_, hT⟩
    obtain rfl : k = padlenCount s := eq_padCount hk
    exact hphase
  case parsechk => exact execParsechk_transfer h
  case hinit => cases h; exact ⟨rfl, rfl⟩
  case bload => exact execBload_transfer h
  case wload =>
    by_cases hT : s.T.toNat < 16
    · rw [if_pos hT] at h
      have htransfer := execWload_transfer h
      rw [setWidth_four_toNat hT] at htransfer
      exact ⟨hT, htransfer⟩
    · rw [if_neg hT] at h
      cases h
  case wexp => exact execWexp_transfer h
  case vinit | dout => cases h; exact ⟨rfl, rfl⟩
  case round => exact execRound_transfer h
  case hmix => exact execHmix_transfer h
  case reservedE | reservedF => cases h

end Sys2Proof.Machine
end

section
/-! SUPPORT. The invariant of the machine step by step, and the proofs of O51, O52 and O53 from it. -/

namespace Sys2Proof.Machine

/-! ### The parts of the invariant -/

theorem errorInvariant_of_no_error {s : State} (hp : s.PHASE ≠ .error) (hcode : s.ERRCODE = .none) :
    errorInvariant s := by
  rw [errorInvariant, if_neg hp]
  exact hcode

theorem errorInvariant_raise_overflow (s : State) : errorInvariant (raise .overflow s) := by
  rw [errorInvariant, if_pos (raise_PHASE _ s), raise_ERRCODE]

theorem errorInvariant.code_eq_none {s : State} (h : errorInvariant s) (hp : s.PHASE ≠ .error) : s.ERRCODE = .none := by
  rwa [errorInvariant, if_neg hp] at h

/-- The invariant shuts out the codes of the two defensive errors (60_exceptions.md R234, R235). -/
theorem errorInvariant.code_not_defensive {s : State} (h : errorInvariant s) :
    s.ERRCODE ≠ .padding ∧ s.ERRCODE ≠ .invalidBlockLength := by
  rw [errorInvariant] at h
  split_ifs at h <;> rw [h] <;> decide

/-- A phase outside an invocation asks nothing of the registers. -/
theorem phaseInvariant_of_waiting {s : State} (h : s.PHASE = .idle ∨ s.PHASE = .done ∨ s.PHASE = .error) :
    phaseInvariant s := by
  rcases h with hp | hp | hp
  · simp only [phaseInvariant, hp]
  · simp only [phaseInvariant, hp]
  · simp only [phaseInvariant, hp]

/-- Settles O51: nothing is written and the phase is IDLE, whatever the free values are. -/
theorem invariantHoldsAtReset : Obligations.InvariantHoldsAtReset := by
  have hmemory : memoryInvariant State.reset := ⟨List.Pairwise.nil, fun c hc => by cases hc⟩
  exact ⟨hmemory, errorInvariant_of_no_error (by decide) rfl, phaseInvariant_of_waiting (.inl rfl)⟩

theorem memoryInvariant.of_hostSideKept {s t : State} (h : memoryInvariant s) (hkept : HostSideKept s t) :
    memoryInvariant t := by
  rw [memoryInvariant, hkept.MSG_eq, hkept.MSG_CAP_eq]
  exact h

theorem memoryInvariant.writeMsg {s : State} {i : Nat} (h : memoryInvariant s) (b : Byte) (hi : i < s.MSG_CAP.val) :
    memoryInvariant (writeMsg s i b) := by
  obtain ⟨hwf, hlt⟩ := h
  exact ⟨Memory.wf_write hwf i b, Memory.addrs_lt_write hlt hi⟩

theorem errorInvariant_of_keepsErrorCode {s t : State} (hkept : KeepsErrorCode s t) (hcode : s.ERRCODE = .none)
    (ht : t.PHASE ≠ .error) : errorInvariant t := by
  obtain ⟨_, herror | hsame⟩ := hkept
  · exact absurd herror ht
  · exact errorInvariant_of_no_error ht (hsame.trans hcode)

/-! ### The three checks (60_exceptions.md R230): LENCHK may raise its error, the two defensive ones never are -/

section
variable {s t : State} (hcode : s.ERRCODE = .none)
include hcode

theorem execLenchk_keepsInvariant (h : execLenchk s = .next t) : errorInvariant t ∧ phaseInvariant t := by
  rcases Nat.lt_or_ge s.MSG_LEN.toNat (2 ^ 61) with hlen | hlong
  · obtain ⟨u, hu, hp, hchecked, hframe⟩ := execLenchk_lengthChecked hlen
    cases hu.symm.trans h
    refine ⟨errorInvariant_of_no_error (by rw [hp]; decide) (hframe.ERRCODE_eq.trans hcode), ?_⟩
    rw [phaseInvariant, hp]
    exact hchecked
  · cases (execLenchk_overflow hlong).symm.trans h
    exact ⟨errorInvariant_raise_overflow s, phaseInvariant_of_waiting (.inr (.inr (raise_PHASE _ s)))⟩

theorem execPadlen_keepsInvariant (hchecked : lengthChecked s) (h : execPadlen s = .next t) :
    errorInvariant t ∧ phaseInvariant t := by
  obtain ⟨u, hu, hp, hcomputed, hframe⟩ := execPadlen_paddingComputed hchecked
  cases hu.symm.trans h
  refine ⟨errorInvariant_of_no_error (by rw [hp]; decide) (hframe.ERRCODE_eq.trans hcode), ?_⟩
  rw [phaseInvariant, hp]
  exact hcomputed

theorem execParsechk_keepsInvariant (hcomputed : paddingComputed s) (h : execParsechk s = .next t) :
    errorInvariant t ∧ phaseInvariant t := by
  obtain ⟨u, hu, hp, hcounted, hbi, hframe⟩ := execParsechk_blocksCounted hcomputed
  cases hu.symm.trans h
  refine ⟨errorInvariant_of_no_error (by rw [hp]; decide) (hframe.ERRCODE_eq.trans hcode), ?_⟩
  rw [phaseInvariant, hp]
  exact ⟨hcounted, by rw [hbi]; rfl⟩

end

/-! ### The operations on the blocks -/

section
variable {s t : State} (hcounted : blocksCounted s)
include hcounted

/-- HINIT has no block to go to only when NB is 0 too. -/
theorem execHinit_phaseInvariant (hbi : s.BI.toNat = 0) (h : execHinit s = .next t) : phaseInvariant t := by
  cases (execHinit_eq s).symm.trans h
  by_cases hnone : s.BI = s.NB
  · have hp : (hinitState s).PHASE = .dout := if_pos hnone
    rw [phaseInvariant, hp]
    exact ⟨hcounted, hnone⟩
  · have hp : (hinitState s).PHASE = .bload := if_neg hnone
    have hne := mt BitVec.eq_of_toNat_eq hnone
    rw [phaseInvariant, hp]
    exact ⟨hcounted, show s.BI.toNat < s.NB.toNat by omega⟩

variable (hbi : s.BI.toNat < s.NB.toNat)
include hbi

theorem execBload_phaseInvariant (h : execBload s = .next t) : phaseInvariant t := by
  obtain ⟨hp, hT⟩ := execBload_transfer h
  obtain ⟨_, _, _, rfl⟩ := execBload_writes h
  rw [phaseInvariant, hp]
  exact ⟨hcounted, hbi, by rw [hT]; decide⟩

/-- After the last WLOAD the index is 16, where WEXP begins. -/
theorem execWload_phaseInvariant {i : BitVec 4} (h : execWload i s = .next t) : phaseInvariant t := by
  obtain ⟨hT, hp⟩ := execWload_transfer h
  obtain ⟨_, _, _, rfl⟩ := execWload_writes h
  have hi := i.isLt
  by_cases hlast : i.toNat = 15
  · rw [phaseInvariant, hp, if_pos hlast]
    exact ⟨hcounted, hbi, by omega⟩
  · rw [phaseInvariant, hp, if_neg hlast]
    exact ⟨hcounted, hbi, by omega⟩

theorem execWexp_phaseInvariant {i : BitVec 6} (h : execWexp i s = .next t) : phaseInvariant t := by
  obtain ⟨hi, htransfer⟩ := execWexp_transfer h
  obtain ⟨_, _, _, rfl⟩ := execWexp_writes h
  by_cases hlast : i.toNat = 63
  · rw [if_pos hlast] at htransfer
    obtain ⟨_, hp⟩ := htransfer
    rw [phaseInvariant, hp]
    exact ⟨hcounted, hbi⟩
  · rw [if_neg hlast] at htransfer
    obtain ⟨hT, hp⟩ := htransfer
    rw [phaseInvariant, hp]
    exact ⟨hcounted, hbi, by omega⟩

theorem execVinit_phaseInvariant (h : execVinit s = .next t) : phaseInvariant t := by
  cases h
  exact ⟨hcounted, hbi⟩

theorem execRound_phaseInvariant {i : BitVec 6} (h : execRound i s = .next t) : phaseInvariant t := by
  have htransfer := execRound_transfer h
  obtain ⟨_, _, _, rfl⟩ := execRound_writes h
  by_cases hlast : i.toNat = 63
  · rw [if_pos hlast] at htransfer
    obtain ⟨_, hp⟩ := htransfer
    rw [phaseInvariant, hp]
    exact ⟨hcounted, hbi⟩
  · rw [if_neg hlast] at htransfer
    obtain ⟨_, hp⟩ := htransfer
    rw [phaseInvariant, hp]
    exact ⟨hcounted, hbi⟩

/-- BI counts up to NB and so never wraps (10_state.md R33). -/
theorem execHmix_phaseInvariant (h : execHmix s = .next t) : phaseInvariant t := by
  have hnb := s.NB.isLt
  have hnowrap : s.BI.toNat + 1 < 2 ^ 56 := by omega
  have hnext := toNat_add_one s.BI hnowrap
  obtain ⟨_, hp, _⟩ := execHmix_transfer h
  cases h
  by_cases hlast : s.BI.toNat + 1 = s.NB.toNat
  · rw [phaseInvariant, hp hnowrap, if_pos hlast]
    exact ⟨hcounted, (blockCount_succ_eq_iff hnowrap).2 hlast⟩
  · rw [phaseInvariant, hp hnowrap, if_neg hlast]
    exact ⟨hcounted, show (s.BI + 1).toNat < s.NB.toNat by omega⟩

end

/-! ### One step -/

theorem engineStep_keepsHostSide : KeepsHostSide engineStep := by
  intro s t h
  rw [engineStep] at h
  split at h
  · exact exec_keepsHostSide _ s t h
  · cases h

/-- ERROR is left by no step of the engine; before every other phase's operation ERRCODE is 0, and only LENCHK changes
it. -/
theorem engineStep_keepsInvariant {s t : State} (herror : errorInvariant s) (hphase : phaseInvariant s)
    (h : engineStep s = .next t) : errorInvariant t ∧ phaseInvariant t := by
  by_cases hs : s.PHASE = .error
  · cases (engineStep_waiting (.inr (.inr hs))).symm.trans h
    exact ⟨herror, hphase⟩
  have hcode := herror.code_eq_none hs
  have hclean : t.PHASE ≠ .error → errorInvariant t :=
    errorInvariant_of_keepsErrorCode (engineStep_keepsErrorCode h) hcode
  have hinv := hphase
  rw [engineStep_eq] at h
  rw [phaseInvariant] at hinv
  cases hp : s.PHASE <;> simp only [hp] at h hinv
  case idle | done => cases h; exact ⟨herror, hphase⟩
  case error => exact absurd hp hs
  case lenchk => exact execLenchk_keepsInvariant hcode h
  case padlen => exact execPadlen_keepsInvariant hcode hinv h
  case parsechk => exact execParsechk_keepsInvariant hcode hinv h
  case hinit =>
    obtain ⟨hcounted, hbi⟩ := hinv
    exact ⟨hclean (execHinit_phase_ne_error h), execHinit_phaseInvariant hcounted hbi h⟩
  case bload =>
    obtain ⟨hcounted, hbi⟩ := hinv
    exact ⟨hclean (execBload_phase_ne_error h), execBload_phaseInvariant hcounted hbi h⟩
  case wload =>
    obtain ⟨hcounted, hbi, hT⟩ := hinv
    rw [if_pos hT] at h
    exact ⟨hclean (execWload_phase_ne_error h), execWload_phaseInvariant hcounted hbi h⟩
  case wexp =>
    obtain ⟨hcounted, hbi, _⟩ := hinv
    exact ⟨hclean (execWexp_phase_ne_error h), execWexp_phaseInvariant hcounted hbi h⟩
  case vinit =>
    obtain ⟨hcounted, hbi⟩ := hinv
    have ht : t.PHASE ≠ .error := by cases h; exact Phase.noConfusion
    exact ⟨hclean ht, execVinit_phaseInvariant hcounted hbi h⟩
  case round =>
    obtain ⟨hcounted, hbi⟩ := hinv
    exact ⟨hclean (execRound_phase_ne_error h), execRound_phaseInvariant hcounted hbi h⟩
  case hmix =>
    obtain ⟨hcounted, hbi⟩ := hinv
    exact ⟨hclean (execHmix_phase_ne_error h), execHmix_phaseInvariant hcounted hbi h⟩
  case dout =>
    cases h
    exact ⟨hclean Phase.noConfusion, phaseInvariant_of_waiting (.inr (.inl rfl))⟩

theorem StateInv.engineStep {s t : State} (hs : StateInv s) (h : engineStep s = .next t) : StateInv t := by
  obtain ⟨hmemory, herror, hphase⟩ := hs
  exact ⟨hmemory.of_hostSideKept (engineStep_keepsHostSide s t h), engineStep_keepsInvariant herror hphase h⟩

/-- In a state of the invariant that is not BUSY the phase is one of the three without an operation. -/
theorem StateInv.waiting_of_not_busy {s : State} (hs : StateInv s) (h : busy s = false) :
    s.PHASE = .idle ∨ s.PHASE = .done ∨ s.PHASE = .error := by
  have hreserved := hs.phase_not_reserved
  have hphases := (not_busy_iff s).1 h
  tauto

theorem StateInv.execStart {s t : State} (hs : StateInv s) (h : execStart s = .next t) : StateInv t := by
  by_cases hp : s.PHASE = .idle ∨ s.PHASE = .done ∨ s.PHASE = .error
  · obtain ⟨hmemory, _⟩ := hs
    cases (execStart_eq_startedState hp).symm.trans h
    exact ⟨hmemory, errorInvariant_of_no_error Phase.noConfusion rfl, trivial⟩
  · cases (execStart_ignored hp).symm.trans h
    exact hs

theorem StateInv.resetEngine {s : State} (hs : StateInv s) : StateInv (resetEngine s) := by
  obtain ⟨hmemory, _⟩ := hs
  exact ⟨hmemory, errorInvariant_of_no_error Phase.noConfusion rfl, phaseInvariant_of_waiting (.inl rfl)⟩

/-- The host reaches MSG, MSG_LEN outside an invocation, START and reset, and nothing else the invariant speaks of. -/
theorem StateInv.hostMove {s t : State} {m : HostMove} (hs : StateInv s) (h : hostMove m s = .next t) :
    StateInv t := by
  cases m with
  | writeMsg i b =>
    obtain ⟨hmemory, hrest⟩ := hs
    obtain ⟨hcap, _, rfl⟩ := hostWriteMsg_eq_next h
    exact ⟨hmemory.writeMsg b hcap, hrest⟩
  | writeMsgLen v =>
    cases hbusy : busy s
    · have hwaiting := hs.waiting_of_not_busy hbusy
      obtain ⟨hmemory, herror, _⟩ := hs
      cases (hostWriteMsgLen_stored v hbusy).symm.trans h
      exact ⟨hmemory, herror, phaseInvariant_of_waiting hwaiting⟩
    · cases (hostWriteMsgLen_ignored v hbusy).symm.trans h
      exact hs
  | writeCtrl v =>
    by_cases hv : v = 0x01#8
    · subst hv
      exact hs.execStart h
    · cases (hostWriteCtrl_reserved hv s).symm.trans h
      exact hs
  | readMsgLen | readCtrl | readStatus | readDigest => cases h; exact hs
  | writeStatus | writeDigest => cases h; exact hs
  | reset => cases h; exact hs.resetEngine

/-- The pending list is no part of the invariant. -/
theorem StateInv.takeInput {s : State} (hs : StateInv s) (rest : List Input) : StateInv (takeInput s rest) := hs

/-- Settles O52: a step is the engine's or a move of the host, and both keep the invariant. -/
theorem everyStepKeepsTheInvariant : Obligations.EveryStepKeepsTheInvariant := by
  intro s t hs h
  rcases step_cases s with ⟨_, hstep⟩ | ⟨rest, _, hstep⟩ | ⟨m, rest, _, hstep⟩
  · exact hs.engineStep (hstep.symm.trans h)
  · exact (hs.takeInput rest).engineStep (hstep.symm.trans h)
  · exact (hs.takeInput rest).hostMove (hstep.symm.trans h)

/-! ### Progress (30_encoding.md R102) -/

/-- A block below NB is one of PM (42_block_parser.md R162). -/
theorem blocksCounted.block_inPadded {s : State} (h : blocksCounted s) (hbi : s.BI.toNat < s.NB.toNat) :
    64 * s.BI.toNat + 64 ≤ s.MSG_LEN.toNat + 1 + s.KPAD.toNat + 8 := by
  obtain ⟨⟨_, _, hplen⟩, hnb⟩ := h
  simp only [msgLength] at hplen
  omega

/-- Behind the length check the premise of 46_top_level.md R213 is that the platform holds the Message. -/
theorem lengthChecked.le_cap {s : State} (h : lengthChecked s) (hrange : messageInRange s) :
    s.MSG_LEN.toNat ≤ s.MSG_CAP.val := by
  obtain ⟨hlen, _⟩ := h
  exact hrange.resolve_right (Nat.not_le.2 hlen)

theorem engineStep_progress {s : State} (hphase : phaseInvariant s) (hrange : messageInRange s) :
    ∃ t, engineStep s = .next t := by
  rw [engineStep_eq]
  rw [phaseInvariant] at hphase
  cases hp : s.PHASE <;> simp only [hp] at hphase ⊢
  case bload =>
    obtain ⟨hcounted, hbi⟩ := hphase
    have ⟨⟨hchecked, _⟩, _⟩ := hcounted
    have hcap := hchecked.le_cap hrange
    exact ⟨_, execBload_schedulingState (hcounted.block_inPadded hbi) hcap⟩
  case wload =>
    obtain ⟨_, _, hT⟩ := hphase
    exact ⟨_, (if_pos hT).trans (execWload_eq _ s)⟩
  case wexp =>
    obtain ⟨_, _, hT⟩ := hphase
    exact ⟨_, execWexp_eq hT s⟩
  case idle | lenchk | padlen | parsechk | hinit | vinit | round | hmix | dout | done | error => exact ⟨_, rfl⟩

/-- Settles O53: the phases whose operation can stop are those whose part of the invariant says that it does not; the
state after the step meets the invariant, which has no defensive error. -/
theorem engineNeverGetsStuck : Obligations.EngineNeverGetsStuck := by
  intro s hs hrange hin
  have ⟨_, _, hphase⟩ := hs
  obtain ⟨t, hstep⟩ := engineStep_progress hphase hrange
  obtain ⟨_, herror, _⟩ := hs.engineStep hstep
  exact ⟨t, (step_of_no_input hin).trans hstep, herror.code_not_defensive⟩

end Sys2Proof.Machine
end

section
/-! SUPPORT. The two constant tables as root fractions of primes, and the proof of O15 from a check of their rows. -/

namespace Sys2Proof.Machine

/-! ### The primes by number -/

theorem length_filter_range {P : Nat → Prop} [DecidablePred P] (n : Nat) :
    ((List.range n).filter P).length = Nat.count P n := by
  rw [Nat.count, List.countP_eq_length_filter]

/-- What satisfies `P` stands in the list of all that do at the number of those before it. -/
theorem filter_range_getD_count {P : Nat → Prop} [DecidablePred P] {n p : Nat} (hp : P p) (hlt : p < n) :
    ((List.range n).filter P).getD (Nat.count P p) 0 = p := by
  obtain ⟨m, rfl⟩ := Nat.exists_eq_add_of_lt hlt
  rw [Nat.add_assoc, List.range_add, List.filter_append, ← length_filter_range,
    List.getD_append_right _ _ _ _ (le_refl _), Nat.sub_self, List.range_succ_eq_map]
  simp [hp]

/-- The first 64 primes. -/
def firstPrimes : List Nat :=
  [2, 3, 5, 7, 11, 13, 17, 19, 23, 29, 31, 37, 41, 43, 47, 53,
   59, 61, 67, 71, 73, 79, 83, 89, 97, 101, 103, 107, 109, 113, 127, 131,
   137, 139, 149, 151, 157, 163, 167, 173, 179, 181, 191, 193, 197, 199, 211, 223,
   227, 229, 233, 239, 241, 251, 257, 263, 269, 271, 277, 281, 283, 293, 307, 311]

theorem filter_prime_range_312 : (List.range 312).filter Nat.Prime = firstPrimes := by decide +kernel

/-- A prime with fewer than 64 primes below it is the entry of the list with its number. -/
theorem firstPrimes_getD_count {p : Nat} (hp : p.Prime) (h : Nat.count Nat.Prime p < 64) :
    firstPrimes.getD (Nat.count Nat.Prime p) 0 = p := by
  have hlt : p < 312 := by
    by_contra hge
    have hmono := Nat.count_monotone Nat.Prime (Nat.le_of_not_lt hge)
    rw [← length_filter_range, filter_prime_range_312] at hmono
    exact absurd (hmono.trans_lt h) (by decide)
  rw [← filter_prime_range_312]
  exact filter_range_getD_count hp hlt

/-! ### The rows of the tables (10_state.md R25, R39) -/

/-- `k` is the first 32 bits of the fractional part of the `e`-th root of `p`, whose integer part is `c`. -/
abbrev IsRootFraction (e p c k : Nat) : Prop :=
  (2 ^ 32 * c + k) ^ e ≤ p * 2 ^ (32 * e) ∧ p * 2 ^ (32 * e) < (2 ^ 32 * c + k + 1) ^ e

/-- The `e`-th root of `p` is below `b`, and `k` is its fraction whichever integer below `b` is its integer part. -/
abbrev RootBelow (e b p k : Nat) : Prop :=
  p < b ^ e ∧ ∀ c, c < b → c ^ e ≤ p → p < (c + 1) ^ e → IsRootFraction e p c k

/-- The integer part of a root below `b` is below `b`. -/
theorem RootBelow.isRootFraction {e b p c k : Nat} (h : RootBelow e b p k) (hle : c ^ e ≤ p) (hlt : p < (c + 1) ^ e) :
    IsRootFraction e p c k := by
  obtain ⟨hp, hroot⟩ := h
  exact hroot c (lt_of_pow_lt_pow_left₀ e (Nat.zero_le b) (hle.trans_lt hp)) hle hlt

theorem K_cubeRoots (t : Fin 64) : RootBelow 3 7 (firstPrimes.getD t.val 0) (K t).toNat := by
  revert t; decide +kernel

theorem H0_squareRoots (i : Fin 8) : RootBelow 2 5 (firstPrimes.getD i.val 0) (H0.get i).toNat := by
  revert i; decide +kernel

/-- Settles O15: the prime of each row is the one of its number in the list, and the rows are checked against it. -/
theorem constantTablesAreRootsOfPrimes : Obligations.ConstantTablesAreRootsOfPrimes := by
  refine ⟨fun t p c hp hcount hle hlt => ?cube, fun i p c hp hcount hle hlt => ?square⟩
  case cube =>
    have hrow := K_cubeRoots t
    rw [← hcount, firstPrimes_getD_count hp (by omega)] at hrow
    exact hrow.isRootFraction hle hlt
  case square =>
    have hrow := H0_squareRoots i
    rw [← hcount, firstPrimes_getD_count hp (by omega)] at hrow
    exact hrow.isRootFraction hle hlt

end Sys2Proof.Machine
end
